-- ==== Sys2Proof/Word.lean ====
section
/-!
DEFINITION. The words of the LZSS stream decoder: the byte its ports and its dictionary carry, the 12-bit window
position of a token's offset, and the 32-bit word of its register window (spec/00_scope.md R7).
-/

namespace Sys2Proof

/-- A `u8`: one byte of a port, of the dictionary or of the stream (R7, R36). -/
abbrev Byte := BitVec 8

/-- A `u12`: a position within the 4096-byte window (R7, R62). -/
abbrev WinPos := BitVec 12

/-- A `u32`: one word of the register window (R6, R44). -/
abbrev Word := BitVec 32

end Sys2Proof
end

