-- ==== Sys2Proof/Config.lean ====
section
/-!
DEFINITION. What is fixed for the block: the parameters of spec/00_scope.md R5, and the two things the spec leaves
open (REG_BASE, and the dictionary's content after a reset), which are constants with no body.
-/

namespace Sys2Proof.Config

/-- `WINDOW`: the dictionary's size and the window origin's step (R5). UNVERIFIED: log 18. -/
def window : Nat := 4096

/-- `MIN_MATCH`: the shortest run, the length of code 0 (R5, R62). -/
def minMatch : Nat := 3

/-- `MAX_MATCH`: the longest run, the length of code 15 (R5, R63). -/
def maxMatch : Nat := 18

/-- `UNITS_PER_CONTROL`: the control bits of one control byte (R5, R58). -/
def unitsPerControl : Nat := 8

/-- The zero fill value: what a read below position 0 yields (R5, R84) and what every slot reads as at START (R26). -/
def zeroFill : Byte := 0

/-- `REG_BASE`: the platform's address of offset 0x00 of the register window (R43, D25).
The spec leaves it open, so nothing can be proved of its value. Log 15. -/
opaque regBase : Nat

/-- The dictionary's content after the `n`-th reset, as (slot, byte) pairs: R35 and I4 leave it unspecified, so
nothing can be proved of it. Log 7. -/
opaque dictAfterReset : Nat → List (Nat × Byte)

end Sys2Proof.Config
end

