-- ==== Sys2Proof/Syntax.lean ====
section
/-!
DEFINITION. The units of the compressed stream, one constructor per row of spec/opcode_table.json
(spec/30_encoding.md R58 to R64), and the ways a stream ends (spec/43_termination.md R100).
-/

namespace Sys2Proof

/-- A unit of the compressed stream. -/
inductive Instr where
  /-- CTRL, the control byte: bit k selects the k-th unit after it, 1 a literal and 0 a back-reference (R58). -/
  | ctrl (s : Byte)
  /-- LIT, the literal byte (R59). -/
  | lit (d : Byte)
  /-- BREF, the back-reference token: a window position and a run's length (R60, R62). -/
  | bref (offset : WinPos) (length : Nat)
  deriving DecidableEq, Repr

/-- The end cause of a run, the field END of STATUS (spec/10_state.md R28). -/
inductive EndCause where
  /-- A run in progress, or none since reset. -/
  | none
  /-- SRC_POS = SRC_LEN at the top of the loop (R94). -/
  | clean
  /-- The stream's last byte was a control byte (R96). -/
  | tail
  /-- The stream ends inside a token (R98). -/
  | overrun
  deriving DecidableEq, Repr

/-- The codes of END (R28). -/
def EndCause.code : EndCause → BitVec 2
  | .none => 0
  | .clean => 1
  | .tail => 2
  | .overrun => 3

end Sys2Proof
end

