-- ==== Sys2Proof/WellFormed.lean ====
section
/-!
DEFINITION. Which terms of Instr the stream format can write. Every value of a control byte, a literal and an offset
is legal (spec/30_encoding.md R65); lengths below 3 and above 18 cannot be encoded (R63).
-/

namespace Sys2Proof

/-- The length is not below the one of code 0 (R63). -/
def Instr.longEnough : Instr → Bool
  | .ctrl _ => true
  | .lit _ => true
  | .bref _ length => decide (Config.minMatch ≤ length)

/-- The length is not above the one of code 15 (R63). -/
def Instr.shortEnough : Instr → Bool
  | .ctrl _ => true
  | .lit _ => true
  | .bref _ length => decide (length ≤ Config.maxMatch)

/-- The instruction has an encoding (R63, R67). -/
def Instr.wellFormed (i : Instr) : Bool := i.longEnough && i.shortEnough

end Sys2Proof
end

