-- ==== Sys2Proof/Decode.lean ====
section
/-!
DEFINITION. The decoder from stream bytes to units and the encoder back (spec/30_encoding.md R56 to R68): the fields
of a token, the decoding of one unit at its position, the whole-stream grammar, the decode word of the opcode map, and
the test notation's pseudo-instructions.
-/

namespace Sys2Proof

/-! ## Fields of a token (R60, R62) -/

/-- `offset = { b1[7:4], b0[7:0] }` (R62). -/
def tokenOffset (b0 b1 : Byte) : WinPos := b1.extractLsb' 4 4 ++ b0

/-- `lcode = b1[3:0]` (R62). -/
def tokenLcode (b1 : Byte) : BitVec 4 := b1.extractLsb' 0 4

/-- `length = zext(lcode) + 3` (R62, R63). -/
def tokenLength (b1 : Byte) : Nat := (tokenLcode b1).toNat + Config.minMatch

/-- The first byte of a token: `b0 = N[7:0]` (R60, R67). -/
def tokenFirst (offset : WinPos) : Byte := offset.extractLsb' 0 8

/-- The second byte of a token: `b1 = {N[11:8], M - 3}` (R60, R67). -/
def tokenSecond (offset : WinPos) (length : Nat) : Byte :=
  offset.extractLsb' 8 4 ++ BitVec.ofNat 4 (length - Config.minMatch)

/-- The control bits of a control byte in the order they are used: bit 0 first (R58, R72). -/
def controlBits (b : Byte) : List Bool := (List.range Config.unitsPerControl).map b.getLsbD

/-! ## Decoding one unit -/

/-- What the decoder's state makes of the next stream byte: a control byte is known by its position, a unit by its
control bit (R58, R61). -/
inductive Position where
  | control
  | unit (c : Bool)
  deriving DecidableEq, Repr

/-- Why bytes are no unit. Stream values are never illegal (R65): only a missing byte, or a number that is no decode
word. -/
inductive DecodeError where
  /-- There is no byte at all. -/
  | noByte
  /-- A token of which only the first byte is there (R56, BREF_TRUNC). -/
  | tokenCutOff
  /-- A number of more than 17 bits is no decode word U (R64). -/
  | notADecodeWord
  deriving DecidableEq, Repr

/-- The unit that `bytes` begin with at a position, and the bytes after it (R58 to R62). -/
def decodeAt : Position → List Byte → Except DecodeError (Instr × List Byte)
  | .control, s :: rest => .ok (.ctrl s, rest)
  | .unit true, d :: rest => .ok (.lit d, rest)
  | .unit false, b0 :: b1 :: rest => .ok (.bref (tokenOffset b0 b1) (tokenLength b1), rest)
  | .unit false, [_] => .error .tokenCutOff
  | .control, [] => .error .noByte
  | .unit _, [] => .error .noByte

/-- The position at which an instruction stands (R58, R61). -/
def Instr.position : Instr → Position
  | .ctrl _ => .control
  | .lit _ => .unit true
  | .bref _ _ => .unit false

/-- The stream bytes of an instruction, in stream order (R58 to R60, R67). -/
def encode : Instr → List Byte
  | .ctrl s => [s]
  | .lit d => [d]
  | .bref offset length => [tokenFirst offset, tokenSecond offset length]

/-- The number of stream bytes of an instruction (R61). -/
def Instr.size : Instr → Nat
  | .ctrl _ => 1
  | .lit _ => 1
  | .bref _ _ => 2

/-! ## The whole stream (R56) -/

/-- The units of a stream and how it ends, `bits` being the control bits not yet used (R56, R61, R73): the grammar
read from left to right. A control byte that is the last byte is a tail, a token with one byte left is an overrun. -/
def parseFrom : List Bool → List Byte → List Instr × EndCause
  | _, [] => ([], .clean)
  | [], [s] => ([.ctrl s], .tail)
  | [], s :: b :: rest =>
    let r := parseFrom (controlBits s) (b :: rest)
    (.ctrl s :: r.1, r.2)
  | true :: bits, d :: rest =>
    let r := parseFrom bits rest
    (.lit d :: r.1, r.2)
  | false :: _, [_] => ([], .overrun)
  | false :: bits, b0 :: b1 :: rest =>
    let r := parseFrom bits rest
    (.bref (tokenOffset b0 b1) (tokenLength b1) :: r.1, r.2)

/-- The units of a whole stream: it begins with the control word fully used (R34, R56). -/
def parseStream (src : List Byte) : List Instr × EndCause := parseFrom [] src

/-! ## The opcode map (R64) -/

/-- The unit of a decode word U: U[16] is the control bit, U[7:0] the first byte, U[15:8] the second. U[16] alone
selects the row, so a literal's U[15:8], which is 0, is not tested (R64). -/
def decodeWord (U : BitVec 17) : Except DecodeError Instr :=
  (decodeAt (.unit U[16]) [U.extractLsb' 0 8, U.extractLsb' 8 8]).map Prod.fst

/-- The decode word of an instruction. CTRL has none: it is chosen by the decoder's state, not by a bit of U (R64). -/
def encodeWord : Instr → Option (BitVec 17)
  | .ctrl _ => none
  | .lit d => some (1#1 ++ (0 : Byte) ++ d)
  | .bref offset length => some (0#1 ++ tokenSecond offset length ++ tokenFirst offset)

/-- The instruction of a row's bits as the opcode table numbers them. A word of at most 8 bits has no U[16]: it is the
one byte of a CTRL, which its position selects. A longer one is a decode word U, and a number of more than 17 bits is
none. DESIGN CHOICE: log 12. -/
def readTableWord (nbits w : Nat) : Except DecodeError Instr :=
  if nbits ≤ 8 then (decodeAt .control [BitVec.ofNat 8 w]).map Prod.fst
  else if w < 2 ^ 17 then decodeWord (BitVec.ofNat 17 w)
  else .error .notADecodeWord

/-- `readTableWord`, with `none` where it rejects. -/
def decodeTableWord (nbits w : Nat) : Option Instr :=
  match readTableWord nbits w with
  | .ok i => some i
  | .error _ => none

/-! ## The test notation (R67, R68) -/

/-- Whether a unit is selected by control bit 1 (R68). -/
def Instr.isLit : Instr → Bool
  | .ctrl _ => false
  | .lit _ => true
  | .bref _ _ => false

/-- The control byte before a group: bit k is 1 exactly when the k-th unit of the group is a LIT, and the unused high
bits are 0 (R68). -/
def groupControl : List Instr → Byte
  | [] => 0
  | u :: us => (groupControl us).shiftConcat u.isLit

/-- `UNITS`: the units in order, a CTRL before units 1, 9, 17, …; `slots` is how many units the present group still
takes (R68). -/
def unitsFrom : Nat → List Instr → List Instr
  | _, [] => []
  | 0, u :: us => .ctrl (groupControl ((u :: us).take Config.unitsPerControl)) :: u :: unitsFrom (Config.unitsPerControl - 1) us
  | slots + 1, u :: us => u :: unitsFrom slots us

/-- `UNITS u1, …, un` as units with their control bytes (R68). -/
def units (us : List Instr) : List Instr := unitsFrom 0 us

/-- The bytes of a sequence of instructions, in order (R67). -/
def assemble (is : List Instr) : List Byte := is.flatMap encode

/-- `LITS "text"`: a LIT of each character's byte, in order (R68). -/
def lits (text : List Byte) : List Instr := text.map Instr.lit

/-- `BREFD dist=D, len=M` at output position `w`: `BREF off=((w - D) mod 4096), len=M`, for 1 ≤ D ≤ 4096 (R68). -/
def brefd (w dist length : Nat) : Instr :=
  .bref (BitVec.ofInt 12 (((w : Int) - dist) % Config.window)) length

end Sys2Proof
end

