-- ==== Sys2Proof/Machine/State.lean ====
section
/-!
DEFINITION. The state of the block and of its ports as plain data (spec/10_state.md R12 to R35, spec/20_memory.md
R36, spec/44_host_control.md R105 to R107), the state after reset, and why a step can stop.
-/

namespace Sys2Proof.Machine

/-- PHASE, the state of the decoder's state machine (R25). Codes 10 to 15 never occur, so they are no value. Log 8. -/
inductive Phase where
  /-- Waits for START. -/
  | idle
  /-- The loop test (R94). -/
  | top
  /-- Takes a control byte (R69). -/
  | refill
  /-- Extracts a control bit (R71). -/
  | unit
  /-- Takes a literal byte (R75). -/
  | lit
  /-- Emits the literal byte (R76). -/
  | litOut
  /-- Takes a token's first byte, or detects an overrun (R79). -/
  | br0
  /-- Takes a token's second byte and resolves it (R80). -/
  | br1
  /-- Copies one byte (R84). -/
  | copy
  /-- The run has stopped; waits for START (R95). -/
  | done
  deriving DecidableEq, Repr

/-- STATUS, field by field (R28). -/
structure Status where
  /-- A run is in progress. -/
  busy : Bool
  /-- The run has stopped, until the next START. -/
  done : Bool
  /-- The end cause of the last run. -/
  endCause : EndCause
  /-- Some back-reference of this run was a forward reference (R83). -/
  fwdref : Bool
  /-- Some byte of this run came from a negative reference (R84). -/
  zfill : Bool
  deriving DecidableEq, Repr

/-- DICT as (slot, byte) pairs in the canonical form of `Dict.wf` (Machine/Ops.lean); a slot that is not listed reads
as 0x00 (R26). -/
abbrev Dict := List Host.Cell

/-- A move of the agents beside a step of the decoder's own accord (R107). A register access names its offset in the
window and its width in bits. -/
inductive HostMove where
  /-- A register write (R101, R102, R104). -/
  | regWrite (offset : BitVec 8) (width : Nat) (x : Word)
  /-- A register read (R103). -/
  | regRead (offset : BitVec 8) (width : Nat)
  /-- Offers one more input byte, after the bytes already offered (R105). -/
  | offer (b : Byte)
  /-- Withdraws every offer that was not taken (R105). -/
  | withdraw
  /-- The consumer drives `out_ready` (R106). -/
  | ready (r : Bool)
  /-- Reset is asserted (R126). -/
  | reset
  /-- No host move: the decoder makes one step before the next move. Log 1. -/
  | decoder
  deriving DecidableEq, Repr

/-- The state. The first fields are the block's, "exactly" those of R12; then the two streams of the current run
(R36); then the signals the host drives; the last three are the model's own (log 1, log 7, log 17). -/
structure State where
  /-- SRC_LEN (R14). -/
  srcLen : BitVec 24
  /-- SRC_POS (R15). -/
  srcPos : BitVec 24
  /-- DST_LEN (R16). -/
  dstLen : BitVec 32
  /-- WIN_CTR (R17). -/
  winCtr : BitVec 12
  /-- WIN_ORIGIN (R18). -/
  winOrigin : BitVec 32
  /-- CTRL_BYTE (R20). -/
  ctrlByte : Byte
  /-- CTRL_CNT (R20). -/
  ctrlCnt : BitVec 4
  /-- LIT_DATA (R22). -/
  litData : Byte
  /-- TOK_LO (R22). -/
  tokLo : Byte
  /-- COPY_SRC, two's complement (R23). -/
  copySrc : BitVec 33
  /-- COPY_REM (R24). -/
  copyRem : BitVec 5
  /-- PHASE (R25). -/
  phase : Phase
  /-- STATUS (R28). -/
  status : Status
  /-- DICT (R26). -/
  dict : Dict
  /-- The input stream: the bytes the current run has taken, position 0 first (R36). Log 5. -/
  input : List Byte
  /-- The output stream: the bytes the current run has emitted, position 0 first (R36). Log 5. -/
  output : List Byte
  /-- The bytes the host offers at the input port, the first being `in_data` (R105). Log 3. -/
  offered : List Byte
  /-- The consumer's `out_ready` (R106). Log 4. -/
  outReady : Bool
  /-- The moves still to come, in order. Log 1. -/
  moves : List HostMove
  /-- What the host's register reads returned, oldest first (R107). -/
  got : List Word
  /-- Numbers the free dictionary content a reset leaves. Log 7. -/
  resets : Nat
  deriving DecidableEq, Repr

/-- Why a step stops. The block itself has no fault (R110, R114). -/
inductive Fault where
  /-- Raised by a meaning that is asked for in a PHASE of another unit, where no rule gives its unit a step (R25).
  A step of the machine never raises it. Safe: nothing is claimed of such a state. Log 9. -/
  | phaseOfAnotherUnit
  deriving DecidableEq, Repr

/-- Why the model gives no meaning. -/
inductive Refusal where
  /-- An instruction that has no meaning yet. No arm of exec answers with it. Safe. -/
  | notModelled (mnemonic : String)
  /-- Raised by a host move: a register access that is not 32 bits wide or not at a multiple of 4. The spec does not
  define it and says that a model refuses it; the reason keeps the mark of it (R44, I5). Safe. Log 14. -/
  | undefinedAccess (offset : BitVec 8) (width : Nat)
  deriving DecidableEq, Repr

/-- STATUS after reset (R35). -/
def Status.reset : Status :=
  { busy := false, done := false, endCause := .none, fwdref := false, zfill := false }

/-- The machine right after reset: every register at R35's value. The spec leaves DICT unspecified (log 6) and says
nothing of the ports' signals (log 17). -/
def State.reset : State where
  srcLen := 0
  srcPos := 0
  dstLen := 0
  winCtr := 0
  winOrigin := 0
  ctrlByte := 0
  ctrlCnt := 0
  litData := 0
  tokLo := 0
  copySrc := 0
  copyRem := 0
  phase := .idle
  status := Status.reset
  dict := []
  input := []
  output := []
  offered := []
  outReady := false
  moves := []
  got := []
  resets := 0

end Sys2Proof.Machine
end

