-- ==== Sys2Proof/Machine/Ops.lean ====
section
/-!
DEFINITION. The named operations over the dictionary, the ports and the run: MemRead and MemWrite
(spec/20_memory.md R42), InTake (R40), Emit (R41), the port signals (spec/44_host_control.md R105, R106), finish
(spec/43_termination.md R95), raise Overrun (spec/60_exceptions.md R111), START's values (spec/10_state.md R34) and reset
(spec/70_reset_and_hazards.md R126).
-/

namespace Sys2Proof.Machine

/-! ## The dictionary -/

/-- The slot of a position: `k mod 4096` (R42). -/
def slotOf (k : Nat) : Nat := k % Config.window

/-- What a slot that is not listed reads as (R26). -/
def Dict.unlisted : Byte := Config.zeroFill

/-- The content of one slot. -/
def Dict.get : Dict → Nat → Byte
  | [], _ => Dict.unlisted
  | (k, v) :: rest, slot => if k = slot then v else Dict.get rest slot

/-- Sets one slot of a canonical list, keeping it canonical. -/
def Dict.set : Dict → Nat → Byte → Dict
  | [], slot, b => if b = Dict.unlisted then [] else [(slot, b)]
  | (k, v) :: rest, slot, b =>
    if k < slot then (k, v) :: Dict.set rest slot b
    else if k = slot then (if b = Dict.unlisted then rest else (slot, b) :: rest)
    else if b = Dict.unlisted then (k, v) :: rest
    else (slot, b) :: (k, v) :: rest

/-- `MemRead(k, 1) = DICT[k mod 4096]` (R42). -/
def Dict.read (d : Dict) (k : Nat) : Byte := d.get (slotOf k)

/-- `MemWrite(k, 1, v) : DICT[k mod 4096] <- v` (R42). -/
def Dict.write (d : Dict) (k : Nat) (v : Byte) : Dict := d.set (slotOf k) v

/-- The slots from a list on rise from `low`, stay below 4096 and hold no byte an unlisted slot reads as. -/
def Dict.wfFrom : Nat → Dict → Bool
  | _, [] => true
  | low, (k, v) :: rest =>
    decide (low ≤ k) && decide (k < Config.window) && decide (v ≠ Dict.unlisted) && Dict.wfFrom (k + 1) rest

/-- The canonical form: slots strictly rising, each below 4096, no entry equal to what an unlisted slot reads as. Equal
dictionaries are then equal lists. -/
def Dict.wf (d : Dict) : Bool := Dict.wfFrom 0 d

/-- A dictionary that holds the given bytes, written one after the other. -/
def Dict.load (cells : List (Nat × Byte)) : Dict := cells.foldl (fun d c => d.write c.1 c.2) []

/-! ## The ports -/

/-- `in_ready`: 1 exactly in REFILL, LIT, BR0 and BR1 (R105). -/
def State.inReady (s : State) : Bool :=
  match s.phase with
  | .refill | .lit | .br0 | .br1 => true
  | .idle | .top | .unit | .litOut | .copy | .done => false

/-- `in_valid`: the host offers a byte (R105). -/
def State.inValid (s : State) : Bool := !s.offered.isEmpty

/-- `out_valid`: 1 exactly in LIT_OUT and COPY (R106). -/
def State.outValid (s : State) : Bool :=
  match s.phase with
  | .litOut | .copy => true
  | .idle | .top | .refill | .unit | .lit | .br0 | .br1 | .done => false

/-- `InTake()`, the transfer of the byte `b` at the input port: `none` where no byte is offered and the step holds (R40).
The byte is at position SRC_POS of the run's input stream (R37). In a step `b` is the first byte offered. Log 10. -/
def State.inTake (s : State) (b : Byte) : Option State :=
  match s.offered with
  | [] => none
  | _ :: rest => some { s with offered := rest, input := s.input ++ [b], srcPos := s.srcPos + 1 }

/-- `Emit(v)`: the transfer at output position DST_LEN, the dictionary write and the increment, in one step; `none` where
the consumer does not accept and the step holds (R41). -/
def State.emit (s : State) (v : Byte) : Option State :=
  if s.outReady then
    some { s with output := s.output ++ [v], dict := s.dict.write s.dstLen.toNat v, dstLen := s.dstLen + 1 }
  else none

/-- A step that needs a transfer: `k` continues from the state after it, and where the transfer is not offered the step
holds and no state changes (R9, R125). Log 2. -/
def State.after (s : State) (transfer : Option State) (k : State → State) : State :=
  match transfer with
  | none => s
  | some t => k t

/-! ## The run -/

/-- `finish(cause)` (R95). -/
def State.finish (s : State) (cause : EndCause) : State :=
  { s with phase := .done, status := { s.status with busy := false, done := true, endCause := cause } }

/-- `raise Overrun(x)`, the block's one exception: the discarded byte is not recorded (R111). -/
def State.raiseOverrun (s : State) (_x : Byte) : State := s.finish .overrun

/-- STATUS at the start of a run (R34). -/
def Status.started : Status :=
  { busy := true, done := false, endCause := .none, fwdref := false, zfill := false }

/-- The start-of-run values, then PHASE <- TOP (R34, R102). SRC_LEN keeps its value. -/
def State.start (s : State) : State :=
  { s with
    srcPos := 0, dstLen := 0, winCtr := 0, winOrigin := 0, ctrlByte := 0, ctrlCnt := 0
    litData := 0, tokLo := 0, copySrc := 0, copyRem := 0
    status := Status.started, dict := [], input := [], output := [], phase := .top }

/-- Reset: every register takes its reset value and DICT is left unspecified, a free value (R126, log 7). What the host
drives and has still to do is not the block's (log 20). -/
def State.resetBlock (s : State) : State :=
  { State.reset with
    dict := Dict.load (Config.dictAfterReset s.resets)
    offered := s.offered, outReady := s.outReady, moves := s.moves, got := s.got, resets := s.resets + 1 }

end Sys2Proof.Machine
end

