-- ==== Sys2Proof/Machine/Operands.lean ====
section
/-!
DEFINITION. The arithmetic of a back-reference: the window advance (spec/42_back_reference.md R81), the resolution of
a window position (R82), and the byte a copy reads (R84). Positions are integers (spec/00_scope.md R7).
-/

namespace Sys2Proof.Machine

/-- `WinAdvance(ctr, origin, n)`: reaching 4096 is a wrap (R81). -/
def winAdvance (ctr : WinPos) (origin : BitVec 32) (n : Nat) : WinPos × BitVec 32 :=
  if Config.window ≤ ctr.toNat + n then
    (BitVec.ofNat 12 (ctr.toNat + n - Config.window), origin + BitVec.ofNat 32 Config.window)
  else (BitVec.ofNat 12 (ctr.toNat + n), origin)

/-- `Resolve(offset, org2, w)`: one correction of -4096 where the position is not behind the write position (R82). -/
def resolve (offset : WinPos) (org2 w : BitVec 32) : Int :=
  let p : Int := offset.toNat + org2.toNat
  if (w.toNat : Int) ≤ p then p - Config.window else p

/-- The registers after the window advance by `n` output bytes. -/
def State.advanceWindow (s : State) (n : Nat) : State :=
  let a := winAdvance s.winCtr s.winOrigin n
  { s with winCtr := a.1, winOrigin := a.2 }

/-- The byte a COPY step emits: 0x00 below position 0, else DICT's, read before the step's own write (R84, R49). -/
def State.copyByte (s : State) : Byte :=
  if s.copySrc.toInt < 0 then Config.zeroFill else s.dict.read s.copySrc.toInt.toNat

/-- `out_data`, while `out_valid` is 1: LIT_DATA in LIT_OUT, the copied byte in COPY (R106). -/
def State.outData (s : State) : Option Byte :=
  match s.phase with
  | .litOut => some s.litData
  | .copy => some s.copyByte
  | .idle | .top | .refill | .unit | .lit | .br0 | .br1 | .done => none

end Sys2Proof.Machine
end

