-- ==== Sys2Proof/Machine/Flags.lean ====
section
/-!
DEFINITION. The two sticky flags of STATUS (spec/10_state.md R33): FWDREF (spec/42_back_reference.md R83) and ZFILL
(R84).
-/

namespace Sys2Proof.Machine

/-- `if p >= DST_LEN then STATUS.FWDREF <- 1` (R80, R83). -/
def Status.flagForward (st : Status) (p : Int) (w : BitVec 32) : Status :=
  { st with fwdref := st.fwdref || decide ((w.toNat : Int) ≤ p) }

/-- `if r < 0 then STATUS.ZFILL <- 1` (R84). -/
def Status.flagZeroFill (st : Status) (r : Int) : Status :=
  { st with zfill := st.zfill || decide (r < 0) }

end Sys2Proof.Machine
end

