-- ==== Sys2Proof/Machine/BackRef.lean ====
section
/-!
DEFINITION. BREF, the back-reference: BR0 with the overrun check, BR1 with the window advance and the resolution, and
COPY, one byte a step (spec/42_back_reference.md R79, R80, R84).
-/

namespace Sys2Proof.Machine

/-- BR0 with the token's first byte. The check is made before the byte is taken; at an overrun the byte is taken and
discarded (R79). Positions are compared as integers (R7). -/
def State.tokenStart (s : State) (b0 : Byte) : State :=
  s.after (s.inTake b0) fun t =>
    if s.srcLen.toNat < s.srcPos.toNat + 2 then t.raiseOverrun b0
    else { t with tokLo := b0, phase := .br1 }

/-- BR1 with the token's second byte: the window is advanced by the whole length first, and the resolution uses the
advanced origin and the write position before the copy (R80). -/
def State.tokenResolve (s : State) (b1 : Byte) : State :=
  s.after (s.inTake b1) fun t =>
    let length := tokenLength b1
    let u := t.advanceWindow length
    let p := resolve (tokenOffset s.tokLo b1) u.winOrigin s.dstLen
    { u with
      status := u.status.flagForward p s.dstLen
      copySrc := BitVec.ofInt 33 p, copyRem := BitVec.ofNat 5 length, phase := .copy }

/-- COPY, one byte (R84). -/
def State.copyStep (s : State) : State :=
  s.after (s.emit s.copyByte) fun t =>
    { t with
      status := t.status.flagZeroFill s.copySrc.toInt
      copySrc := s.copySrc + 1, copyRem := s.copyRem - 1
      phase := if s.copyRem = 1 then .top else .copy }

/-- BREF: the step of its phase, BR0, BR1 or COPY; BR0 takes the token's first byte, BR1 its second (R79, R80, R84).
Log 9 for any other phase. -/
def execBref (offset : WinPos) (length : Nat) (s : State) : Host.Outcome State Fault Refusal :=
  match s.phase with
  | .br0 => .next (s.tokenStart (tokenFirst offset))
  | .br1 => .next (s.tokenResolve (tokenSecond offset length))
  | .copy => .next s.copyStep
  | .idle | .top | .refill | .unit | .lit | .litOut | .done => .fault .phaseOfAnotherUnit

end Sys2Proof.Machine
end

