-- ==== Sys2Proof/Machine/Control.lean ====
section
/-!
DEFINITION. The loop test TOP (spec/43_termination.md R94), the control-bit extraction UNIT
(spec/40_control_byte.md R71) and CTRL, the refill (R69).
-/

namespace Sys2Proof.Machine

/-- TOP, the loop test (R94). -/
def State.loopTest (s : State) : State :=
  if s.srcPos = s.srcLen then s.finish .clean
  else if s.ctrlCnt = 0 then { s with phase := .refill }
  else { s with phase := .unit }

/-- UNIT, the control-bit extraction: a 0 is shifted in at bit 7 (R71). -/
def State.extractBit (s : State) : State :=
  { s with
    ctrlByte := s.ctrlByte >>> 1, ctrlCnt := s.ctrlCnt - 1
    phase := if s.ctrlByte[0] then .lit else .br0 }

/-- REFILL with the control byte `b` (R69). Positions are compared as integers (R7). -/
def State.refill (s : State) (b : Byte) : State :=
  s.after (s.inTake b) fun t =>
    let u := { t with ctrlByte := b, ctrlCnt := 8 }
    if s.srcPos.toNat + 1 = s.srcLen.toNat then u.finish .tail else { u with phase := .unit }

/-- CTRL: one step, in phase REFILL (R69). Log 9 for any other phase. -/
def execCtrl (b : Byte) (s : State) : Host.Outcome State Fault Refusal :=
  match s.phase with
  | .refill => .next (s.refill b)
  | .idle | .top | .unit | .lit | .litOut | .br0 | .br1 | .copy | .done => .fault .phaseOfAnotherUnit

end Sys2Proof.Machine
end

