-- ==== Sys2Proof/Machine/Literal.lean ====
section
/-!
DEFINITION. LIT, the literal unit: the input half and the output half (spec/41_literal.md R75, R76).
-/

namespace Sys2Proof.Machine

/-- LIT, the input half, with the byte `d` (R75). -/
def State.literalIn (s : State) (d : Byte) : State :=
  s.after (s.inTake d) fun t => { t with litData := d, phase := .litOut }

/-- LIT_OUT, the output half and the window advance by 1 (R76). -/
def State.literalOut (s : State) : State :=
  s.after (s.emit s.litData) fun t => { t.advanceWindow 1 with phase := .top }

/-- LIT: the step of its phase, LIT or LIT_OUT (R75, R76). Log 9 for any other phase. -/
def execLit (d : Byte) (s : State) : Host.Outcome State Fault Refusal :=
  match s.phase with
  | .lit => .next (s.literalIn d)
  | .litOut => .next s.literalOut
  | .idle | .top | .refill | .unit | .br0 | .br1 | .copy | .done => .fault .phaseOfAnotherUnit

end Sys2Proof.Machine
end

