-- ==== Sys2Proof/Machine/Dispatch.lean ====
section
/-!
DEFINITION. The meaning of each unit: one arm per constructor (spec/10_state.md R25, spec/opcode_table.json).
-/

namespace Sys2Proof.Machine

def exec (i : Instr) (s : State) : Host.Outcome State Fault Refusal :=
  match i with
  -- spec/40_control_byte.md R69
  | .ctrl b => Sys2Proof.Machine.execCtrl b s
  -- spec/41_literal.md R75, R76
  | .lit d => Sys2Proof.Machine.execLit d s
  -- spec/42_back_reference.md R79, R80, R84
  | .bref offset length => Sys2Proof.Machine.execBref offset length s

end Sys2Proof.Machine
end

