-- ==== Sys2Proof/Machine/Fetch.lean ====
section
/-!
DEFINITION. The unit a step of the decoder belongs to, read from its registers and the input port
(spec/10_state.md R25, spec/30_encoding.md R61, R64), and the state in which a given unit comes next.
-/

namespace Sys2Proof.Machine

/-- The unit that bytes begin with, if they do. -/
def unitAt (p : Position) (bytes : List Byte) : Option Instr :=
  match decodeAt p bytes with
  | .ok (i, _) => some i
  | .error _ => none

/-- The unit of the decoder's next step; `none` where no unit's byte is offered yet, or the phase is none of a unit's.
BR0 takes a first byte whatever follows it, so a second byte not offered yet is put down as 0x00, which BR0 does not
read. In COPY the unit is the rest of the run: a token at COPY_SRC's window position, of COPY_REM bytes. Log 11. -/
def State.unitInProgress (s : State) : Option Instr :=
  match s.phase with
  | .refill => unitAt .control s.offered
  | .lit => unitAt (.unit true) s.offered
  | .litOut => unitAt (.unit true) [s.litData]
  | .br0 => unitAt (.unit false) (s.offered ++ [0])
  | .br1 => unitAt (.unit false) (s.tokLo :: s.offered)
  | .copy => some (.bref (s.copySrc.extractLsb' 0 12) s.copyRem.toNat)
  | .idle | .top | .unit | .done => none

/-- The phase in which a unit's first byte is taken (R25). -/
def Instr.firstPhase : Instr → Phase
  | .ctrl _ => .refill
  | .lit _ => .lit
  | .bref _ _ => .br0

/-- A run in which the unit `i` comes next, its bytes (padded with 0x00 to the longest unit's two) being the stream:
the run is at position 0 of a two-byte stream, the host offers it and has no move before it. Log 13. -/
def State.placeUnit (s : State) (i : Instr) : State :=
  { s with
    srcLen := 2, srcPos := 0, input := [], offered := (encode i ++ [0]).take 2
    phase := Instr.firstPhase i, status := Status.started, moves := [] }

end Sys2Proof.Machine
end

