-- ==== Sys2Proof/Machine/Registers.lean ====
section
/-!
DEFINITION. The register window: the map (spec/20_memory.md R43), the value each register reads as
(spec/44_host_control.md R103) and what a write to it does (R101, R102, R104).
-/

namespace Sys2Proof.Machine

/-- The registers of the window (R43). -/
inductive Reg where
  | ctrl
  | status
  | srcLen
  | srcPos
  | dstLen
  | state
  | winOrigin
  /-- Offsets 0x1C to 0xFC. -/
  | reserved
  deriving DecidableEq, Repr

/-- The register at an aligned offset (R43). -/
def regAt (offset : BitVec 8) : Reg :=
  match offset.toNat with
  | 0x00 => .ctrl
  | 0x04 => .status
  | 0x08 => .srcLen
  | 0x0C => .srcPos
  | 0x10 => .dstLen
  | 0x14 => .state
  | 0x18 => .winOrigin
  | _ => .reserved

/-- The one kind of access the spec defines: 32 bits wide, at a multiple of 4 (R44). -/
def accessDefined (offset : BitVec 8) (width : Nat) : Bool :=
  decide (width = 32) && decide (offset.toNat % 4 = 0)

/-- The offset in the window of a bus address, the window standing at REG_BASE; `none` for an address outside it, which
is no access to this block (R36, R43). -/
def busOffset (addr : Nat) : Option (BitVec 8) :=
  if Config.regBase ≤ addr ∧ addr < Config.regBase + 256 then some (BitVec.ofNat 8 (addr - Config.regBase)) else none

/-- Byte lane `i` of a register word carries bits 8i+7:8i (R46). -/
def laneByte (x : Word) (i : Fin 4) : Byte := x.extractLsb' (8 * i) 8

/-- The codes of PHASE (R25). -/
def Phase.code : Phase → BitVec 4
  | .idle => 0
  | .top => 1
  | .refill => 2
  | .unit => 3
  | .lit => 4
  | .litOut => 5
  | .br0 => 6
  | .br1 => 7
  | .copy => 8
  | .done => 9

/-- STATUS as a word: BUSY in bit 0, DONE in 1, END in 3:2, FWDREF in 4, ZFILL in 5, the rest 0 (R28). -/
def Status.word (st : Status) : Word :=
  (0 : BitVec 26) ++ BitVec.ofBool st.zfill ++ BitVec.ofBool st.fwdref ++ st.endCause.code ++
    BitVec.ofBool st.done ++ BitVec.ofBool st.busy

/-- STATE as a word: WIN_CTR in 11:0, CTRL_CNT in 15:12, CTRL_BYTE in 23:16, PHASE in 27:24, the rest 0 (R32). -/
def State.stateWord (s : State) : Word :=
  (0 : BitVec 4) ++ s.phase.code ++ s.ctrlByte ++ s.ctrlCnt ++ s.winCtr

/-- The value a read of a register returns (R103); reserved offsets and reserved bits read 0 (R45). -/
def State.readReg (s : State) : Reg → Word
  | .ctrl => 0
  | .status => s.status.word
  | .srcLen => s.srcLen.setWidth 32
  | .srcPos => s.srcPos.setWidth 32
  | .dstLen => s.dstLen
  | .state => s.stateWord
  | .winOrigin => s.winOrigin
  | .reserved => 0

/-- A write to CTRL: START where bit 0 is 1 and no run is in progress, else nothing (R29, R102). -/
def State.writeCtrl (s : State) (x : Word) : State :=
  if x[0] && !s.status.busy then s.start else s

/-- A write to SRC_LEN: bits 23:0, ignored entirely while BUSY (R30, R101). -/
def State.writeSrcLen (s : State) (x : Word) : State :=
  if s.status.busy then s else { s with srcLen := x.extractLsb' 0 24 }

/-- What a write to a register does; writes to read-only and reserved offsets are ignored (R104, R45). -/
def State.writeReg (s : State) (x : Word) : Reg → State
  | .ctrl => s.writeCtrl x
  | .srcLen => s.writeSrcLen x
  | .status => s
  | .srcPos => s
  | .dstLen => s
  | .state => s
  | .winOrigin => s
  | .reserved => s

end Sys2Proof.Machine
end

