-- ==== Sys2Proof/Machine/Agent.lean ====
section
/-!
DEFINITION. The two agents: a step of the decoder (spec/10_state.md R25) and a move of the host
(spec/44_host_control.md R107).
-/

namespace Sys2Proof.Machine

/-- The step of the unit in progress; where its byte is not offered the step holds (R9, R40). Log 2. -/
def State.unitStep (s : State) : Host.Outcome State Fault Refusal :=
  match s.unitInProgress with
  | none => .next s
  | some i => exec i s

/-- One step of the decoder: the one rule its phase names. In IDLE and DONE it has none, and waits (R25, R125). -/
def State.decoderStep (s : State) : Host.Outcome State Fault Refusal :=
  match s.phase with
  | .idle => .next s
  | .done => .next s
  | .top => .next s.loopTest
  | .unit => .next s.extractBit
  | .refill => s.unitStep
  | .lit => s.unitStep
  | .litOut => s.unitStep
  | .br0 => s.unitStep
  | .br1 => s.unitStep
  | .copy => s.unitStep

/-- One move (R107). A register access the spec does not define is refused (R44); a read changes only what the host has
got (R48). -/
def State.move (s : State) : HostMove → Host.Outcome State Fault Refusal
  | .regWrite offset width x =>
    if accessDefined offset width then .next (s.writeReg x (regAt offset)) else .refused (.undefinedAccess offset width)
  | .regRead offset width =>
    if accessDefined offset width then .next { s with got := s.got ++ [s.readReg (regAt offset)] }
    else .refused (.undefinedAccess offset width)
  | .offer b => .next { s with offered := s.offered ++ [b] }
  | .withdraw => .next { s with offered := [] }
  | .ready r => .next { s with outReady := r }
  | .reset => .next s.resetBlock
  | .decoder => s.decoderStep

end Sys2Proof.Machine
end

