-- ==== Sys2Proof/Machine/Step.lean ====
section
/-!
DEFINITION. One step of the machine (spec/00_scope.md R9, spec/44_host_control.md R107): the next move of the list, or,
where the list is empty, the decoder's own step.
-/

namespace Sys2Proof.Machine

/-- One step. Log 1. -/
def step (s : State) : Host.Outcome State Fault Refusal :=
  match s.moves with
  | [] => s.decoderStep
  | m :: rest => State.move { s with moves := rest } m

/-- The state whose very next step runs the instruction of a table word. Log 13. -/
def State.withFetchWord (s : State) (nbits w : Nat) : State :=
  match decodeTableWord nbits w with
  | some i => s.placeUnit i
  | none => s

end Sys2Proof.Machine
end

