-- ==== Sys2Proof/Safety.lean ====
section
/-!
DEFINITION. The terms the claims use: the invariant of a run (spec/10_state.md R19 to R28, spec/42_back_reference.md
R85, R87, spec/43_termination.md R97), the textbook ring decoder the spec compares the block with
(spec/42_back_reference.md R90), and what is left of a run for that decoder.
-/

namespace Sys2Proof.Machine

/-! ## The invariant -/

/-- A run is in progress: PHASE is neither IDLE nor DONE (R28). -/
abbrev State.Running (s : State) : Prop := s.phase ≠ .idle ∧ s.phase ≠ .done

/-- The phases that are entered only with a stream byte left (R97). -/
def State.needsByte (s : State) : Bool :=
  match s.phase with
  | .refill | .unit | .lit | .br0 | .br1 => true
  | .idle | .top | .litOut | .copy | .done => false

/-- The output bytes that input already taken still allows beyond DST_LEN under the 9:1 bound (R66, R85): a literal
taken owes 1 byte, half a token 9, a copy the rest of its run. -/
def State.owed (s : State) : Nat :=
  match s.phase with
  | .litOut => 1
  | .br1 => 9
  | .copy => s.copyRem.toNat
  | .idle | .top | .refill | .unit | .lit | .br0 | .done => 0

/-- BUSY, DONE and END say what PHASE says (R28). -/
structure State.StatusAgrees (s : State) : Prop where
  busy : s.status.busy = true ↔ s.Running
  done : s.status.done = true ↔ s.phase = .done
  endCause : s.status.endCause = .none ↔ s.phase ≠ .done

/-- The source cursor stays within the stream, and the control bits are those not yet used (R97, R20, R21). -/
structure State.SourceAgrees (s : State) : Prop where
  within : s.Running → s.srcPos.toNat ≤ s.srcLen.toNat
  byteLeft : s.needsByte = true → s.srcPos.toNat < s.srcLen.toNat
  taken : s.input.length = s.srcPos.toNat
  count : s.ctrlCnt.toNat ≤ 8
  unused : s.ctrlByte.toNat < 2 ^ s.ctrlCnt.toNat
  unitHasBit : s.phase = .unit → 0 < s.ctrlCnt.toNat
  refillHasNone : s.phase = .refill → s.ctrlCnt = 0

/-- The window invariant (R19, R87), the origin's step (R18) and the copy registers' ranges (R23, R24). -/
structure State.WindowAgrees (s : State) : Prop where
  sum : s.winOrigin.toNat + s.winCtr.toNat = s.dstLen.toNat + s.copyRem.toNat
  origin : s.winOrigin.toNat % Config.window = 0
  rem : s.copyRem.toNat ≤ Config.maxMatch
  copying : s.phase = .copy ↔ s.copyRem ≠ 0
  srcLow : -(Config.window : Int) ≤ s.copySrc.toInt
  srcHigh : s.copySrc.toInt ≤ s.dstLen.toNat + 17
  inWindow : s.phase = .copy → (s.dstLen.toNat : Int) ≤ s.copySrc.toInt + Config.window

/-- The output bound (R85) and the dictionary's content law (R27). In IDLE the spec leaves DICT unspecified (R35). -/
structure State.OutputAgrees (s : State) : Prop where
  emitted : s.output.length = s.dstLen.toNat
  bound : s.dstLen.toNat + s.owed ≤ 9 * s.srcPos.toNat
  canonical : s.dict.wf = true
  content : s.phase ≠ .idle → ∀ r, r < s.dstLen.toNat → s.dstLen.toNat ≤ r + Config.window →
    s.output[r]? = some (s.dict.read r)
  unwritten : s.phase ≠ .idle → ∀ slot, slot < Config.window → s.dstLen.toNat ≤ slot →
    s.dict.read slot = Config.zeroFill

/-- The invariant of the block: it holds after reset, and every step keeps it. -/
structure State.Inv (s : State) : Prop where
  status : s.StatusAgrees
  source : s.SourceAgrees
  window : s.WindowAgrees
  output : s.OutputAgrees

/-! ## The textbook ring decoder (R90) -/

/-- Emits a byte: it is written to the ring at the slot of its output position. -/
def ringEmit (b : Byte) (r : (Nat → Byte) × List Byte) : (Nat → Byte) × List Byte :=
  (Function.update r.1 (r.2.length % 4096) b, r.2 ++ [b])

/-- A token's run: `n` bytes from ring slot `slot` on, each written before the next is read. -/
def ringCopy : Nat → Nat → (Nat → Byte) × List Byte → (Nat → Byte) × List Byte
  | _, 0, r => r
  | slot, n + 1, r => ringCopy (slot + 1) n (ringEmit (r.1 (slot % 4096)) r)

/-- One unit on the ring: a literal emits its byte, a token emits ring[(offset + i) mod 4096]. -/
def ringUnit (r : (Nat → Byte) × List Byte) : Instr → (Nat → Byte) × List Byte
  | .ctrl _ => r
  | .lit d => ringEmit d r
  | .bref offset length => ringCopy offset.toNat length r

/-- The units on the ring, in order; the output is the second component. -/
def ringUnits (us : List Instr) (r : (Nat → Byte) × List Byte) : (Nat → Byte) × List Byte := us.foldl ringUnit r

/-- The textbook decoder: the stream's units run on a ring of zeros; its output, and how the stream ends (R90, R56). -/
def textbook (src : List Byte) : List Byte × EndCause :=
  ((ringUnits (parseStream src).1 (fun _ => 0, [])).2, (parseStream src).2)

/-! ## What is left of a run -/

/-- The control bits not yet used, next first (R21). -/
def State.bitsLeft (s : State) : List Bool := (List.range s.ctrlCnt.toNat).map s.ctrlByte.getLsbD

/-- The ring and the output the block holds. -/
def State.ring (s : State) : (Nat → Byte) × List Byte := (s.dict.get, s.output)

/-- The window slot of COPY_SRC: its residue modulo 4096 (R42, R83). -/
def State.copySlot (s : State) : Nat := (s.copySrc.toInt % Config.window).toNat

/-- The units of a rest of a stream on the ring, and how it ends. -/
def ringRest (p : List Instr × EndCause) (r : (Nat → Byte) × List Byte) : List Byte × EndCause :=
  ((ringUnits p.1 r).2, p.2)

/-- What the textbook decoder, put where the block stands in its run, makes of the rest of the stream. -/
def State.textbookRest (s : State) (rest : List Byte) : List Byte × EndCause :=
  match s.phase with
  | .idle => (s.output, s.status.endCause)
  | .done => (s.output, s.status.endCause)
  | .top => ringRest (parseFrom s.bitsLeft rest) s.ring
  | .refill => ringRest (parseFrom s.bitsLeft rest) s.ring
  | .unit => ringRest (parseFrom s.bitsLeft rest) s.ring
  | .lit => ringRest (parseFrom (true :: s.bitsLeft) rest) s.ring
  | .litOut => ringRest (parseFrom s.bitsLeft rest) (ringEmit s.litData s.ring)
  | .br0 => ringRest (parseFrom (false :: s.bitsLeft) rest) s.ring
  | .br1 => ringRest (parseFrom (false :: s.bitsLeft) (s.tokLo :: rest)) s.ring
  | .copy => ringRest (parseFrom s.bitsLeft rest) (ringCopy s.copySlot s.copyRem.toNat s.ring)

/-- The run follows the textbook decoder: while it is in progress, whatever the rest of the stream is, decoding the
whole stream from its first byte and going on from where the block stands give the same output and the same end; and
once it has stopped, its output and its end are the textbook decoder's of the bytes it took. -/
structure State.FollowsTextbook (s : State) : Prop where
  running : s.Running → ∀ rest : List Byte, s.srcPos.toNat + rest.length = s.srcLen.toNat →
    textbook (s.input ++ rest) = s.textbookRest rest
  stopped : s.phase = .done → textbook s.input = (s.output, s.status.endCause)

/-! ## Runs and the host's duties (R107) -/

/-- `k` steps of the machine. -/
def State.runSteps (s : State) (k : Nat) : Host.Outcome State Fault Refusal := Sys2Proof.core.run k s

/-- The host has no further move, offers the rest of the run's stream and accepts output. -/
structure State.Served (s : State) : Prop where
  noMoves : s.moves = []
  offers : s.srcLen.toNat ≤ s.srcPos.toNat + s.offered.length
  accepts : s.outReady = true

end Sys2Proof.Machine
end

