-- ==== Sys2Proof/Certificates/Slice0/Obligations.lean ====
section
/-!
DEFINITION. The statements for the provers. Each docstring names the rules of spec/ it formalises.
-/

open Sys2Proof Sys2Proof.Machine

/-! ## Reset, start and the invariant -/

/-- R35: after reset every register and STATUS is 0 and PHASE is IDLE; whatever DICT holds then, no read observes it,
because the decoder makes no step in IDLE and START gives the same run from every content. -/
def Obligations.ResetRegisterValues : Prop :=
  State.reset.phase = .idle ∧ State.reset.srcLen = 0 ∧ State.reset.srcPos = 0 ∧ State.reset.dstLen = 0 ∧
  State.reset.winCtr = 0 ∧ State.reset.winOrigin = 0 ∧ State.reset.ctrlByte = 0 ∧ State.reset.ctrlCnt = 0 ∧
  State.reset.litData = 0 ∧ State.reset.tokLo = 0 ∧ State.reset.copySrc = 0 ∧ State.reset.copyRem = 0 ∧
  State.reset.status.busy = false ∧ State.reset.status.done = false ∧ State.reset.status.endCause = .none ∧
  State.reset.status.fwdref = false ∧ State.reset.status.zfill = false ∧ State.reset.readReg .status = 0 ∧
  ∀ dict : Dict,
    ({ State.reset with dict := dict } : State).decoderStep = .next { State.reset with dict := dict } ∧
    ({ State.reset with dict := dict } : State).start = State.reset.start

/-- R126: reset, in any phase, gives every register its reset value and abandons the run: nothing offered is taken, END is
not set, and the decoder makes no step before the next START. DICT is left unspecified, so nothing is said of it. -/
def Obligations.ResetAbandonsRun : Prop :=
  ∀ s : State, ∃ t, s.move .reset = .next t ∧ t.phase = .idle ∧ t.srcLen = 0 ∧ t.srcPos = 0 ∧ t.dstLen = 0 ∧
    t.winCtr = 0 ∧ t.winOrigin = 0 ∧ t.ctrlByte = 0 ∧ t.ctrlCnt = 0 ∧ t.litData = 0 ∧ t.tokLo = 0 ∧ t.copySrc = 0 ∧
    t.copyRem = 0 ∧ t.readReg .status = 0 ∧ t.status.endCause = .none ∧ t.offered = s.offered ∧
    t.inReady = false ∧ t.outValid = false ∧ t.decoderStep = .next t

/-- R102, R34: a write of 1 to CTRL bit 0 outside a run sets exactly the start-of-run values, keeps SRC_LEN and what the
host drives, and makes every DICT slot read 0x00; with bit 0 clear, or while BUSY, it has no effect. -/
def Obligations.StartSetsRunValues : Prop :=
  ∀ (s : State) (x : Word),
    (x[0] = false → s.move (.regWrite 0x00 32 x) = .next s) ∧
    (s.status.busy = true → s.move (.regWrite 0x00 32 x) = .next s) ∧
    (x[0] = true → s.status.busy = false → ∃ t, s.move (.regWrite 0x00 32 x) = .next t ∧
      t.srcPos = 0 ∧ t.dstLen = 0 ∧ t.winCtr = 0 ∧ t.winOrigin = 0 ∧ t.ctrlCnt = 0 ∧ t.ctrlByte = 0 ∧
      t.litData = 0 ∧ t.tokLo = 0 ∧ t.copySrc = 0 ∧ t.copyRem = 0 ∧ t.status.busy = true ∧ t.status.done = false ∧
      t.status.endCause = .none ∧ t.status.fwdref = false ∧ t.status.zfill = false ∧ t.phase = .top ∧
      (∀ k, t.dict.read k = 0) ∧ t.srcLen = s.srcLen ∧ t.offered = s.offered ∧ t.outReady = s.outReady ∧
      t.moves = s.moves ∧ t.got = s.got ∧ t.resets = s.resets)

/-- R129, R11: two machines that agree on SRC_LEN and on what the host drives and has still to do begin the same run,
whatever earlier runs, resets and DICT content they have behind them: the whole state after START is equal but for the
record of earlier register reads and the model's count of resets, which are taken as equal here. -/
def Obligations.StartForgetsEarlierRuns : Prop :=
  ∀ s₁ s₂ : State, s₁.srcLen = s₂.srcLen → s₁.offered = s₂.offered → s₁.outReady = s₂.outReady →
    s₁.moves = s₂.moves → s₁.got = s₂.got → s₁.resets = s₂.resets → s₁.start = s₂.start

/-- The invariant (R18 to R28, R85, R97) holds after reset. -/
def Obligations.ResetMeetsInvariant : Prop := State.reset.Inv

/-- Every step, of the decoder or of the host, keeps the invariant: STATUS says what PHASE says (R28), the cursor stays
within the stream (R97), the control bits are those not yet used (R20, R21), the window invariant (R19, R87) and the
ranges of the copy registers (R23, R24), the output bound (R85) and the dictionary's content law (R27) in canonical form. -/
def Obligations.EveryStepKeepsInvariant : Prop := ∀ s t : State, s.Inv → step s = .next t → t.Inv

/-- R19: in the state after reset, after START, and after every step, of the decoder or of the host, from a state of the
invariant: outside COPY, WIN_ORIGIN + WIN_CTR = DST_LEN and WIN_CTR = DST_LEN mod 4096; in COPY the sum runs ahead of
DST_LEN by COPY_REM. As sums of numbers. -/
def Obligations.WindowSumAtEveryStep : Prop :=
  ∀ t : State, (t = State.reset ∨ (∃ s : State, t = s.start) ∨ ∃ s : State, s.Inv ∧ step s = .next t) →
    (t.phase ≠ .copy →
      t.winOrigin.toNat + t.winCtr.toNat = t.dstLen.toNat ∧ t.winCtr.toNat = t.dstLen.toNat % 4096) ∧
    (t.phase = .copy → t.winOrigin.toNat + t.winCtr.toNat = t.dstLen.toNat + t.copyRem.toNat)

/-! ## The register window -/

/-- R101: a write to SRC_LEN takes bits 23:0 and changes nothing else; while BUSY it is ignored. -/
def Obligations.SrcLenWriteOutsideRun : Prop :=
  ∀ (s : State) (x : Word),
    (s.status.busy = true → s.move (.regWrite 0x08 32 x) = .next s) ∧
    (s.status.busy = false →
      s.move (.regWrite 0x08 32 x) = .next { s with srcLen := BitVec.ofNat 24 (x.toNat % 2 ^ 24) })

/-- R104: writes to the read-only and to the reserved offsets are ignored in every phase. -/
def Obligations.OtherWritesIgnored : Prop :=
  ∀ (s : State) (offset : BitVec 8) (x : Word), offset.toNat % 4 = 0 → offset ≠ 0x00 → offset ≠ 0x08 →
    s.move (.regWrite offset 32 x) = .next s

/-- R133: during a run no register write has an effect, and none raises an error. -/
def Obligations.WritesDuringRunIgnored : Prop :=
  ∀ (s : State) (offset : BitVec 8) (x : Word), s.Inv → s.Running → offset.toNat % 4 = 0 →
    s.move (.regWrite offset 32 x) = .next s

/-- R103: what a register read returns at each offset, in every phase, STATUS with the fields of R28 and STATE with those of
R32; it changes nothing but what the host has got (R48). -/
def Obligations.RegisterReadsReturn : Prop :=
  ∀ (s : State) (offset : BitVec 8), offset.toNat % 4 = 0 → ∃ v : Word,
    s.move (.regRead offset 32) = .next { s with got := s.got ++ [v] } ∧
    (offset = 0x00 → v = 0) ∧
    (offset = 0x04 → v.toNat = s.status.busy.toNat + 2 * s.status.done.toNat +
      4 * [EndCause.none, .clean, .tail, .overrun].idxOf s.status.endCause + 16 * s.status.fwdref.toNat +
      32 * s.status.zfill.toNat) ∧
    (offset = 0x08 → v.toNat = s.srcLen.toNat) ∧ (offset = 0x0C → v.toNat = s.srcPos.toNat) ∧
    (offset = 0x10 → v = s.dstLen) ∧
    (offset = 0x14 → v.toNat = s.winCtr.toNat + 2 ^ 12 * s.ctrlCnt.toNat + 2 ^ 16 * s.ctrlByte.toNat +
      2 ^ 24 * s.phase.code.toNat) ∧
    (offset = 0x18 → v = s.winOrigin) ∧ (0x1C ≤ offset.toNat → v = 0)

/-- R32: the fields of STATE in its word, the reserved bits 0, with the codes of PHASE in the order of R25's table; writes to
it are ignored. -/
def Obligations.StateWordFields : Prop :=
  ∀ s : State,
    (s.readReg (regAt 0x14)).extractLsb' 0 12 = s.winCtr ∧ (s.readReg (regAt 0x14)).extractLsb' 12 4 = s.ctrlCnt ∧
    (s.readReg (regAt 0x14)).extractLsb' 16 8 = s.ctrlByte ∧
    ((s.readReg (regAt 0x14)).extractLsb' 24 4).toNat =
      [Phase.idle, .top, .refill, .unit, .lit, .litOut, .br0, .br1, .copy, .done].idxOf s.phase ∧
    (s.readReg (regAt 0x14)).extractLsb' 28 4 = 0 ∧ ∀ x : Word, s.move (.regWrite 0x14 32 x) = .next s

/-- R44: exactly the 32-bit accesses at multiples of 4 are defined; the model refuses any other. -/
def Obligations.UndefinedAccessRefused : Prop :=
  ∀ (s : State) (offset : BitVec 8) (width : Nat) (x : Word),
    (width = 32 ∧ offset.toNat % 4 = 0 →
      (∃ t, s.move (.regWrite offset width x) = .next t) ∧ ∃ t, s.move (.regRead offset width) = .next t) ∧
    (¬(width = 32 ∧ offset.toNat % 4 = 0) →
      s.move (.regWrite offset width x) = .refused (.undefinedAccess offset width) ∧
      s.move (.regRead offset width) = .refused (.undefinedAccess offset width))

/-! ## The steps of a run -/

/-- A step runs the decoded unit (R9, R25, R61): where the decoder makes the step (no move is pending, or the next is its
own), the step is the decoder's, and in a unit's phase exec of the unit the bytes at the port decode to (in BR1 those after
the byte already taken; in LIT_OUT the byte already taken; in BR0 a first byte is enough; in COPY any token's name), in the
state that has the other moves still to come. Any other pending move is made first.
The model's choice, which no rule fixes: the list of moves, its order, and that the decoder goes on where it is empty
(log 1); that exec's operand is the byte at the port (log 10); and which unit exec is asked for in BR0 with one byte and
in COPY (log 11). -/
def Obligations.StepRunsDecodedUnit : Prop :=
  (∀ s u : State, (s.moves = [] ∧ u = s) ∨ (∃ ms, s.moves = .decoder :: ms ∧ u = { s with moves := ms }) →
    step s = u.decoderStep ∧
    (∀ i rest, s.phase = .refill → decodeAt .control s.offered = .ok (i, rest) → step s = exec i u) ∧
    (∀ i rest, s.phase = .lit → decodeAt (.unit true) s.offered = .ok (i, rest) → step s = exec i u) ∧
    (∀ i rest, s.phase = .br0 → decodeAt (.unit false) s.offered = .ok (i, rest) → step s = exec i u) ∧
    (∀ b0 offset length, s.phase = .br0 → s.offered = [b0] → tokenFirst offset = b0 →
      step s = exec (.bref offset length) u) ∧
    (∀ i rest, s.phase = .br1 → decodeAt (.unit false) (s.tokLo :: s.offered) = .ok (i, rest) →
      step s = exec i u) ∧
    (s.phase = .litOut → step s = exec (.lit s.litData) u) ∧
    (∀ offset length, s.phase = .copy → step s = exec (.bref offset length) u)) ∧
  ∀ (s : State) (m : HostMove) (ms : List HostMove), s.moves = m :: ms →
    step s = State.move { s with moves := ms } m

/-- R94: the decoder's step at TOP, the loop test, stops the run CLEAN where SRC_POS = SRC_LEN, else goes to REFILL where CTRL_CNT = 0, else
to UNIT, and changes nothing else; SRC_POS > SRC_LEN never holds there. -/
def Obligations.LoopTestAtTop : Prop :=
  ∀ s : State, s.phase = .top →
    s.decoderStep = .next (
      if s.srcPos = s.srcLen then
        { s with phase := .done, status := { s.status with busy := false, done := true, endCause := .clean } }
      else if s.ctrlCnt = 0 then { s with phase := .refill }
      else { s with phase := .unit }) ∧
    (s.Inv → s.srcPos.toNat ≤ s.srcLen.toNat)

/-- R71: the decoder's step at UNIT, the control-bit extraction, takes bit 0, shifts a 0 into bit 7, counts down and goes to LIT or BR0; in a
run there is a bit to take. -/
def Obligations.ControlBitExtraction : Prop :=
  ∀ s : State, s.phase = .unit →
    s.decoderStep = .next { s with
      ctrlByte := BitVec.ofNat 8 (s.ctrlByte.toNat / 2), ctrlCnt := s.ctrlCnt - 1
      phase := if s.ctrlByte.toNat % 2 = 1 then .lit else .br0 } ∧
    (s.Inv → 1 ≤ s.ctrlCnt.toNat ∧ s.ctrlCnt.toNat ≤ 8)

/-- R70: after a refill with b and j extractions the block holds b shifted right by j with 8 - j bits left, and the
source's packed word F = (0xFF00 | b) >> j selects the same bits and has its bit 8 clear at the same refill point. -/
def Obligations.PackedControlWordAgrees : Prop :=
  ∀ (s : State) (b : Byte) (j : Nat), s.ctrlByte = b → s.ctrlCnt = 8 → j ≤ 8 →
    (State.extractBit^[j] s).ctrlByte = b >>> j ∧ (State.extractBit^[j] s).ctrlCnt.toNat = 8 - j ∧
    (j < 8 → ((0xFF00#16 ||| b.setWidth 16) >>> j).getLsbD 0 = b.getLsbD j ∧
      (State.extractBit^[j] s).ctrlByte.getLsbD 0 = b.getLsbD j) ∧
    (((0xFF00#16 ||| b.setWidth 16) >>> j).getLsbD 8 = true ↔ j ≤ 7) ∧
    ((State.extractBit^[j] s).ctrlCnt = 0 ↔ ((0xFF00#16 ||| b.setWidth 16) >>> j).getLsbD 8 = false)

/-- R69: CTRL completes in REFILL with a byte offered: the byte is taken into CTRL_BYTE, CTRL_CNT is 8, and the run stops
TAIL where it was the stream's last byte, else goes on to UNIT. -/
def Obligations.ControlByteCompletes : Prop :=
  ∀ (s : State) (b : Byte) (rest : List Byte), s.phase = .refill → s.offered = b :: rest →
    exec (.ctrl b) s = .next (
      if s.srcPos.toNat + 1 = s.srcLen.toNat then
        { s with
          offered := rest, input := s.input ++ [b], srcPos := s.srcPos + 1, ctrlByte := b, ctrlCnt := 8
          phase := .done, status := { s.status with busy := false, done := true, endCause := .tail } }
      else
        { s with
          offered := rest, input := s.input ++ [b], srcPos := s.srcPos + 1, ctrlByte := b, ctrlCnt := 8
          phase := .unit })

/-- R75: LIT, the input half, completes with a byte offered. -/
def Obligations.LiteralInputCompletes : Prop :=
  ∀ (s : State) (d : Byte) (rest : List Byte), s.phase = .lit → s.offered = d :: rest →
    exec (.lit d) s = .next { s with
      offered := rest, input := s.input ++ [d], srcPos := s.srcPos + 1, litData := d, phase := .litOut }

/-- R76: LIT_OUT emits LIT_DATA at position DST_LEN, writes it to the dictionary and advances the window by 1, wrapping at
4096, after which the window sum holds; where the consumer does not accept, nothing changes. -/
def Obligations.LiteralOutputCompletes : Prop :=
  ∀ (s : State) (d : Byte), s.phase = .litOut →
    (s.outReady = true → ∃ t, exec (.lit d) s = .next t ∧
      t = { s with
        output := s.output ++ [s.litData], dict := s.dict.write s.dstLen.toNat s.litData, dstLen := s.dstLen + 1
        winCtr := if 4096 ≤ s.winCtr.toNat + 1 then 0 else s.winCtr + 1
        winOrigin := if 4096 ≤ s.winCtr.toNat + 1 then s.winOrigin + 4096 else s.winOrigin
        phase := .top } ∧
      (s.Inv → t.winOrigin.toNat + t.winCtr.toNat = t.dstLen.toNat)) ∧
    (s.outReady = false → exec (.lit d) s = .next s)

/-- R79: BR0 completes with a byte offered: with two stream bytes left it takes the token's first byte into TOK_LO; with
fewer it takes the byte, discards it and stops the run OVERRUN, the window and the output untouched. -/
def Obligations.TokenFirstByteCompletes : Prop :=
  ∀ (s : State) (offset : WinPos) (length : Nat) (b0 : Byte) (rest : List Byte), s.phase = .br0 →
    s.offered = b0 :: rest → tokenFirst offset = b0 →
    exec (.bref offset length) s = .next (
      if (s.srcLen.toNat : Int) - s.srcPos.toNat < 2 then
        { s with
          offered := rest, input := s.input ++ [b0], srcPos := s.srcPos + 1
          phase := .done, status := { s.status with busy := false, done := true, endCause := .overrun } }
      else
        { s with
          offered := rest, input := s.input ++ [b0], srcPos := s.srcPos + 1, tokLo := b0, phase := .br1 }) ∧
    (s.Inv → s.srcPos.toNat < s.srcLen.toNat)

/-- R80: BR1 completes with a byte offered: it decodes the token, advances the window by the whole length, resolves with
the advanced origin and the write position before the copy, sets FWDREF for a forward reference, and goes to COPY. -/
def Obligations.TokenSecondByteCompletes : Prop :=
  ∀ (s : State) (offset : WinPos) (length : Nat) (b1 : Byte) (rest : List Byte), s.phase = .br1 →
    s.offered = b1 :: rest → tokenFirst offset = s.tokLo → tokenSecond offset length = b1 → 3 ≤ length → length ≤ 18 →
    exec (.bref offset length) s = .next { s with
      offered := rest, input := s.input ++ [b1], srcPos := s.srcPos + 1
      winCtr := (winAdvance s.winCtr s.winOrigin length).1
      winOrigin := (winAdvance s.winCtr s.winOrigin length).2
      status := { s.status with
        fwdref := s.status.fwdref ||
          decide ((s.dstLen.toNat : Int) ≤ resolve offset (winAdvance s.winCtr s.winOrigin length).2 s.dstLen) }
      copySrc := BitVec.ofInt 33 (resolve offset (winAdvance s.winCtr s.winOrigin length).2 s.dstLen)
      copyRem := BitVec.ofNat 5 length, phase := .copy }

/-- R84: COPY emits one byte: 0x00, with ZFILL set, below position 0, else the dictionary's byte from before the step's own
write; where the consumer does not accept, nothing changes. -/
def Obligations.CopyStepCompletes : Prop :=
  ∀ (s : State) (offset : WinPos) (length : Nat), s.phase = .copy →
    (s.outReady = true → ∀ v, v = (if s.copySrc.toInt < 0 then 0 else s.dict.read s.copySrc.toInt.toNat) →
      exec (.bref offset length) s = .next { s with
        output := s.output ++ [v], dict := s.dict.write s.dstLen.toNat v, dstLen := s.dstLen + 1
        status := { s.status with zfill := s.status.zfill || decide (s.copySrc.toInt < 0) }
        copySrc := s.copySrc + 1, copyRem := s.copyRem - 1
        phase := if s.copyRem = 1 then .top else .copy }) ∧
    (s.outReady = false → exec (.bref offset length) s = .next s)

/-- R81: the window advance of a unit of 1 to 18 output bytes: reaching 4096 is a wrap, and the origin grows at most once. -/
def Obligations.WindowAdvanceRule : Prop :=
  ∀ (ctr : WinPos) (origin : BitVec 32) (n : Nat), 1 ≤ n → n ≤ 18 →
    (4096 ≤ ctr.toNat + n → (winAdvance ctr origin n).1.toNat = ctr.toNat + n - 4096 ∧
      (winAdvance ctr origin n).2 = origin + 4096) ∧
    (ctr.toNat + n < 4096 → (winAdvance ctr origin n).1.toNat = ctr.toNat + n ∧
      (winAdvance ctr origin n).2 = origin) ∧
    ctr.toNat + n < 8192

/-- R82: the resolution adds offset and advanced origin and subtracts 4096 once where that is not behind the write
position; for a token of a run the result lies in -4096 .. w + 17. -/
def Obligations.ResolveRule : Prop :=
  (∀ (offset : WinPos) (org2 w : BitVec 32),
    resolve offset org2 w =
      if (w.toNat : Int) ≤ (offset.toNat : Int) + org2.toNat then (offset.toNat : Int) + org2.toNat - 4096
      else (offset.toNat : Int) + org2.toNat) ∧
  ∀ (s : State) (offset : WinPos) (length : Nat), s.Inv → s.phase = .br1 → 3 ≤ length → length ≤ 18 →
    -4096 ≤ resolve offset (winAdvance s.winCtr s.winOrigin length).2 s.dstLen ∧
    resolve offset (winAdvance s.winCtr s.winOrigin length).2 s.dstLen ≤ s.dstLen.toNat + 17

/-! ## Frames -/

/-- CTRL's frame (R69, "State written"): all but SRC_POS, CTRL_BYTE, CTRL_CNT, PHASE, STATUS at a tail stop, and the input
transfer is unchanged, every dictionary slot included. -/
def Obligations.ControlByteFrame : Prop :=
  ∀ (b : Byte) (s t : State), exec (.ctrl b) s = .next t →
    t.srcLen = s.srcLen ∧ t.dstLen = s.dstLen ∧ t.winCtr = s.winCtr ∧ t.winOrigin = s.winOrigin ∧
    t.litData = s.litData ∧ t.tokLo = s.tokLo ∧ t.copySrc = s.copySrc ∧ t.copyRem = s.copyRem ∧
    (∀ k, t.dict.read k = s.dict.read k) ∧ t.output = s.output ∧ t.outReady = s.outReady ∧ t.moves = s.moves ∧
    t.got = s.got ∧ t.resets = s.resets ∧ t.status.fwdref = s.status.fwdref ∧ t.status.zfill = s.status.zfill ∧
    (t.phase ≠ .done → t.status = s.status)

/-- LIT's frame (R75, R76, "State written"): STATUS, the control and the copy registers are unchanged in both halves; the
input half stores nothing, the output half only the slot of DST_LEN. -/
def Obligations.LiteralFrame : Prop :=
  ∀ (d : Byte) (s t : State), exec (.lit d) s = .next t →
    t.srcLen = s.srcLen ∧ t.ctrlByte = s.ctrlByte ∧ t.ctrlCnt = s.ctrlCnt ∧ t.tokLo = s.tokLo ∧
    t.copySrc = s.copySrc ∧ t.copyRem = s.copyRem ∧ t.status = s.status ∧ t.outReady = s.outReady ∧
    t.moves = s.moves ∧ t.got = s.got ∧ t.resets = s.resets ∧
    (s.phase = .lit → t.dstLen = s.dstLen ∧ t.winCtr = s.winCtr ∧ t.winOrigin = s.winOrigin ∧ t.output = s.output ∧
      ∀ k, t.dict.read k = s.dict.read k) ∧
    (s.phase = .litOut → t.srcPos = s.srcPos ∧ t.litData = s.litData ∧ t.input = s.input ∧ t.offered = s.offered ∧
      ∀ k, slotOf k ≠ slotOf s.dstLen.toNat → t.dict.read k = s.dict.read k)

/-- BREF's frame (R79, R80, R84, "State written"): phase by phase, what is not written; BR0 and BR1 store nothing, COPY
only the slot of DST_LEN. -/
def Obligations.TokenFrame : Prop :=
  ∀ (offset : WinPos) (length : Nat) (s t : State), exec (.bref offset length) s = .next t →
    t.srcLen = s.srcLen ∧ t.ctrlByte = s.ctrlByte ∧ t.ctrlCnt = s.ctrlCnt ∧ t.litData = s.litData ∧
    t.outReady = s.outReady ∧ t.moves = s.moves ∧ t.got = s.got ∧ t.resets = s.resets ∧
    (s.phase = .br0 → t.dstLen = s.dstLen ∧ t.winCtr = s.winCtr ∧ t.winOrigin = s.winOrigin ∧
      t.copySrc = s.copySrc ∧ t.copyRem = s.copyRem ∧ t.output = s.output ∧
      t.status.fwdref = s.status.fwdref ∧ t.status.zfill = s.status.zfill ∧ (t.phase ≠ .done → t.status = s.status) ∧
      (t.phase = .done → t.tokLo = s.tokLo) ∧ ∀ k, t.dict.read k = s.dict.read k) ∧
    (s.phase = .br1 → t.dstLen = s.dstLen ∧ t.tokLo = s.tokLo ∧ t.output = s.output ∧
      t.status.busy = s.status.busy ∧ t.status.done = s.status.done ∧ t.status.endCause = s.status.endCause ∧
      t.status.zfill = s.status.zfill ∧ ∀ k, t.dict.read k = s.dict.read k) ∧
    (s.phase = .copy → t.srcPos = s.srcPos ∧ t.winCtr = s.winCtr ∧ t.winOrigin = s.winOrigin ∧ t.tokLo = s.tokLo ∧
      t.input = s.input ∧ t.offered = s.offered ∧ t.status.busy = s.status.busy ∧ t.status.done = s.status.done ∧
      t.status.endCause = s.status.endCause ∧ t.status.fwdref = s.status.fwdref ∧
      ∀ k, slotOf k ≠ slotOf s.dstLen.toNat → t.dict.read k = s.dict.read k)

/-! ## Encoding -/

/-- R62: the fields of a token, as numbers. -/
def Obligations.TokenFieldAssembly : Prop :=
  ∀ b0 b1 : Byte, (tokenOffset b0 b1).toNat = b1.toNat / 16 * 256 + b0.toNat ∧
    (tokenLcode b1).toNat = b1.toNat % 16 ∧ tokenLength b1 = b1.toNat % 16 + 3

/-- Decoding the encoding of a well-formed instruction at its position gives it back, with the bytes after it
(R58 to R63, R67). -/
def Obligations.DecodeOfEncode : Prop :=
  ∀ (i : Instr) (rest : List Byte), i.wellFormed = true → decodeAt i.position (encode i ++ rest) = .ok (i, rest)

/-- What the decoder reads is well formed, stands at its position, and encodes to the bytes it was read from: each
sequence of bytes has one meaning (R58 to R63). -/
def Obligations.EncodeOfDecode : Prop :=
  ∀ (p : Position) (bytes rest : List Byte) (i : Instr), decodeAt p bytes = .ok (i, rest) →
    i.wellFormed = true ∧ i.position = p ∧ encode i ++ rest = bytes

/-- R61: the control bit alone decides a unit's length, 1 byte for a literal and 2 for a token; a control byte is 1 byte.
Decoding fails only where those bytes are not there (R65). -/
def Obligations.ControlBitDecidesLength : Prop :=
  ∀ bytes : List Byte,
    (∀ i rest, decodeAt (.unit true) bytes = .ok (i, rest) → i.isLit = true ∧ bytes.length = rest.length + 1) ∧
    (∀ i rest, decodeAt (.unit false) bytes = .ok (i, rest) → i.isLit = false ∧ bytes.length = rest.length + 2) ∧
    (∀ i rest, decodeAt .control bytes = .ok (i, rest) → bytes.length = rest.length + 1) ∧
    ((∃ e, decodeAt (.unit true) bytes = .error e) ↔ bytes = []) ∧
    ((∃ e, decodeAt (.unit false) bytes = .error e) ↔ bytes.length < 2) ∧
    ((∃ e, decodeAt .control bytes = .error e) ↔ bytes = [])

/-- R64: U[16] alone selects LIT or BREF, the other bits are operands, and CTRL is never tested against U; the decode word
of a well-formed LIT or BREF decodes to it. -/
def Obligations.DecodeWordRows : Prop :=
  (∀ U : BitVec 17,
    (U &&& 0x10000 = 0x10000 → decodeWord U = .ok (.lit (U.extractLsb' 0 8))) ∧
    (U &&& 0x10000 = 0 → decodeWord U =
      .ok (.bref (tokenOffset (U.extractLsb' 0 8) (U.extractLsb' 8 8)) (tokenLength (U.extractLsb' 8 8)))) ∧
    ∀ s, decodeWord U ≠ .ok (.ctrl s)) ∧
  ∀ (i : Instr) (U : BitVec 17), i.wellFormed = true → encodeWord i = some U → decodeWord U = .ok i

/-- R56, R68: every sequence of well-formed literals and tokens, written as UNITS with its control bytes and assembled, is
a stream whose grammar reads back exactly those units and which ends clean. -/
def Obligations.AssembledUnitsParseBack : Prop :=
  ∀ us : List Instr, (∀ u ∈ us, u.wellFormed = true ∧ u.position ≠ .control) →
    parseStream (assemble (units us)) = (units us, .clean)

/-- Words written out from the spec's encodings decode to what they stand for (R58 to R60, R62, 95_test_vectors.md §2.3). The
last two are decode words U (R64); that a table word of 24 bits is read as one is the model's choice (log 12). -/
def Obligations.WrittenOutWordsDecode : Prop :=
  decodeAt .control [0b00000101] = .ok (.ctrl 0x05, []) ∧
  decodeAt (.unit true) [0b01000001] = .ok (.lit 0x41, []) ∧
  decodeAt (.unit false) [0b00100011, 0b00010010] = .ok (.bref 0x123 5, []) ∧
  decodeAt (.unit false) [0b00110100, 0b10100111] = .ok (.bref 0xA34 10, []) ∧
  decodeAt (.unit false) [0b11111110, 0b11110001] = .ok (.bref 4094 4, []) ∧
  decodeTableWord 24 0b1_00000000_01000001 = some (.lit 0x41) ∧
  decodeTableWord 24 0b0_00010010_00100011 = some (.bref 0x123 5)

/-- R68: `BREFD dist=D` at the write position of a run resolves to w - D, or, as a forward reference, to the position
4096 above it, whose window slot is the same. -/
def Obligations.BrefdReadsAtDistance : Prop :=
  ∀ (s : State) (dist length : Nat) (offset : WinPos), s.Inv → s.phase = .br1 → 1 ≤ dist → dist ≤ 4096 →
    3 ≤ length → length ≤ 18 → brefd s.dstLen.toNat dist length = .bref offset length →
    resolve offset (winAdvance s.winCtr s.winOrigin length).2 s.dstLen = (s.dstLen.toNat : Int) - dist ∨
    (resolve offset (winAdvance s.winCtr s.winOrigin length).2 s.dstLen = (s.dstLen.toNat : Int) - dist + 4096 ∧
      (s.dstLen.toNat : Int) ≤ resolve offset (winAdvance s.winCtr s.winOrigin length).2 s.dstLen)

/-! ## The machine as a whole -/

/-- R25: PHASE changes only as its table shows, and by reset. -/
def Obligations.PhaseChangesByTable : Prop :=
  ∀ s t : State, s.Inv → step s = .next t → t.phase ≠ s.phase → s.moves.head? ≠ some .reset →
    (s.phase, t.phase) ∈
      [(Phase.idle, Phase.top), (.top, .done), (.top, .refill), (.top, .unit), (.refill, .done), (.refill, .unit),
       (.unit, .lit), (.unit, .br0), (.lit, .litOut), (.litOut, .top), (.br0, .br1), (.br0, .done), (.br1, .copy),
       (.copy, .top), (.done, .top)]

/-- R9: a step of the decoder makes at most one input or one output transfer, never both: an input transfer takes the first
byte offered, in a phase that takes input; an output transfer emits `out_data`, in a phase that emits, to a consumer that
accepts. Where the phase needs a transfer that is not offered, nothing changes. -/
def Obligations.AtMostOneTransfer : Prop :=
  ∀ s t : State, s.decoderStep = .next t →
    ((t.input = s.input ∧ t.offered = s.offered ∧ t.srcPos = s.srcPos) ∨
      (s.inReady = true ∧ ∃ b, s.offered = b :: t.offered ∧ t.input = s.input ++ [b] ∧ t.srcPos = s.srcPos + 1)) ∧
    ((t.output = s.output ∧ t.dstLen = s.dstLen ∧ t.dict = s.dict) ∨
      (s.outValid = true ∧ s.outReady = true ∧ ∃ v, s.outData = some v ∧ t.output = s.output ++ [v] ∧
        t.dstLen = s.dstLen + 1 ∧ t.dict = s.dict.write s.dstLen.toNat v)) ∧
    (t.input = s.input ∨ t.output = s.output) ∧
    ((s.inReady = true ∧ s.offered = [] ∨ s.outValid = true ∧ s.outReady = false) → t = s)

/-- R125: the block waits in IDLE and DONE for START and in a phase that needs a transfer for that transfer, every wait
keeps all state whenever the decoder's turn comes, whatever moves are still pending, and only reset or the awaited host move
ends it. -/
def Obligations.WaitsKeepState : Prop :=
  ∀ s : State, s.Inv →
    ((s.phase = .idle ∨ s.phase = .done ∨ (s.inReady = true ∧ s.offered = []) ∨
        (s.outValid = true ∧ s.outReady = false)) →
      s.decoderStep = .next s ∧ s.move .decoder = .next s ∧ (s.moves = [] → step s = .next s)) ∧
    (∀ m t, s.move m = .next t → m ≠ .reset →
      ((s.phase = .idle ∨ s.phase = .done) → (∀ x, x[0] = true → m ≠ .regWrite 0x00 32 x) → t.phase = s.phase) ∧
      (s.inReady = true → s.offered = [] → (∀ b, m ≠ .offer b) → t.phase = s.phase ∧ t.offered = []) ∧
      (s.outValid = true → s.outReady = false → m ≠ .ready true → t.phase = s.phase ∧ t.outReady = false))

/-- R97, R54: an input byte is taken only with SRC_POS < SRC_LEN, so SRC_POS ≤ SRC_LEN all through a run; outside a run and
after its last byte none is taken, and bytes offered stay with the host. -/
def Obligations.InputOnlyWithinStream : Prop :=
  ∀ s t : State, s.Inv → s.decoderStep = .next t →
    (s.Running → s.srcPos.toNat ≤ s.srcLen.toNat) ∧
    (t.input ≠ s.input → s.Running ∧ s.srcPos.toNat < s.srcLen.toNat) ∧
    ((¬s.Running ∨ s.srcPos = s.srcLen) → t.offered = s.offered)

/-- R105: `in_ready` is 1 exactly in REFILL, LIT, BR0 and BR1; there, and only there, a byte that is offered is taken, and
without one the phase does not complete; the host may offer a byte, or withdraw what was not taken, at any time. The last two
clauses are the model's choice (log 3): an offer appends to the list of offered bytes, and a withdrawal empties it. -/
def Obligations.InputPortTransfers : Prop :=
  ∀ s : State,
    (s.inReady = true ↔ s.phase = .refill ∨ s.phase = .lit ∨ s.phase = .br0 ∨ s.phase = .br1) ∧
    (s.inReady = true → s.inValid = true → ∃ b t, s.decoderStep = .next t ∧ s.offered = b :: t.offered ∧
      t.input = s.input ++ [b] ∧ t.phase ≠ s.phase) ∧
    (s.inReady = true → s.inValid = false → s.decoderStep = .next s) ∧
    (s.inReady = false → ∀ t, s.decoderStep = .next t → t.offered = s.offered ∧ t.input = s.input) ∧
    (∀ b, s.move (.offer b) = .next { s with offered := s.offered ++ [b] }) ∧
    s.move .withdraw = .next { s with offered := [] }

/-- R106: `out_valid` and `out_data` as the phase says, and an offered byte is never withdrawn: until it is transferred,
every step but a reset leaves it offered; a step of the decoder transfers it as soon as `out_ready` is 1. -/
def Obligations.OutputOfferIsKept : Prop :=
  ∀ s t : State, s.Inv → step s = .next t → s.moves.head? ≠ some .reset →
    (s.outValid = true ↔ s.phase = .litOut ∨ s.phase = .copy) ∧
    (s.phase = .litOut → s.outData = some s.litData) ∧ (s.phase = .copy → s.outData = some s.copyByte) ∧
    (s.outValid = true →
      (t.outValid = true ∧ t.outData = s.outData ∧ t.output = s.output) ∨
      (s.outReady = true ∧ ∃ v, s.outData = some v ∧ t.output = s.output ++ [v])) ∧
    (s.outValid = true → s.outReady = true → s.moves = [] → ∃ v, s.outData = some v ∧ t.output = s.output ++ [v])

/-- R95: `finish` writes PHASE, BUSY, DONE and END; in DONE the results then stay as they are, and no byte moves, under every
step but START and reset. -/
def Obligations.DoneKeepsResults : Prop :=
  (∀ (s : State) (c : EndCause), s.finish c =
    { s with phase := .done, status := { s.status with busy := false, done := true, endCause := c } }) ∧
  ∀ s t : State, s.Inv → s.phase = .done → step s = .next t → s.moves.head? ≠ some .reset →
    (∀ x, x[0] = true → s.moves.head? ≠ some (.regWrite 0x00 32 x)) →
    t.phase = .done ∧ t.status = s.status ∧ t.srcPos = s.srcPos ∧ t.dstLen = s.dstLen ∧ t.winCtr = s.winCtr ∧
    t.winOrigin = s.winOrigin ∧ t.ctrlByte = s.ctrlByte ∧ t.ctrlCnt = s.ctrlCnt ∧ t.output = s.output ∧
    t.input = s.input

/-- R100: how a run stops: CLEAN from TOP, TAIL from REFILL, OVERRUN from BR0, each with SRC_POS = SRC_LEN. -/
def Obligations.RunStopsAtStreamEnd : Prop :=
  ∀ s t : State, s.Inv → step s = .next t → s.phase ≠ .done → t.phase = .done →
    t.srcPos = t.srcLen ∧ t.srcLen = s.srcLen ∧ t.status.busy = false ∧ t.status.done = true ∧
    ((s.phase = .top ∧ t.status.endCause = .clean ∧ t.input = s.input) ∨
      (s.phase = .refill ∧ t.status.endCause = .tail ∧ t.ctrlCnt = 8 ∧ ∃ b, t.input = s.input ++ [b]) ∨
      (s.phase = .br0 ∧ t.status.endCause = .overrun ∧ ∃ b, t.input = s.input ++ [b]))

/-- R117, R111: the overrun stop is precise: the output and the dictionary are those before the cut-off token, SRC_POS =
SRC_LEN, the window and the flags are untouched, and the decoder makes no further step. -/
def Obligations.OverrunIsPrecise : Prop :=
  ∀ (s : State) (b : Byte) (rest : List Byte), s.Inv → s.moves = [] → s.phase = .br0 → s.offered = b :: rest →
    s.srcLen.toNat - s.srcPos.toNat = 1 →
    ∃ t, step s = .next t ∧ t.phase = .done ∧ t.status.endCause = .overrun ∧ t.srcPos = t.srcLen ∧
      t.output = s.output ∧ t.dstLen = s.dstLen ∧ t.dict = s.dict ∧ t.winCtr = s.winCtr ∧
      t.winOrigin = s.winOrigin ∧ t.status.fwdref = s.status.fwdref ∧ t.status.zfill = s.status.zfill ∧
      t.offered = rest ∧ step t = .next t

/-- R33: no rule reads STATUS to decide a step: with another STATUS the decoder's step is the same but for STATUS. -/
def Obligations.StatusDecidesNoStep : Prop :=
  ∀ (s t : State) (st : Status), s.decoderStep = .next t →
    ∃ st', State.decoderStep { s with status := st } = .next { t with status := st' }

/-- R33: FWDREF and ZFILL are sticky within a run, and one step sets at most one of them (R116). -/
def Obligations.FlagsAreSticky : Prop :=
  ∀ s t : State, s.Inv → s.Running → step s = .next t → s.moves.head? ≠ some .reset →
    (s.status.fwdref = true → t.status.fwdref = true) ∧ (s.status.zfill = true → t.status.zfill = true) ∧
    (t.status.fwdref = s.status.fwdref ∨ t.status.zfill = s.status.zfill)

/-- R114: no condition stops the block: the decoder always has a next state, the machine never faults, and a step is
refused only for a register access the spec does not define (R44). -/
def Obligations.NoStepFaults : Prop :=
  ∀ s : State, (∃ t, s.decoderStep = .next t) ∧ (∀ f, step s ≠ .fault f) ∧
    ∀ r, step s = .refused r → ∃ offset width, r = .undefinedAccess offset width ∧
      ¬(width = 32 ∧ offset.toNat % 4 = 0)

/-- R131: the block never loops without a transfer: at most two steps from anywhere in a run it needs a transfer or has
stopped. -/
def Obligations.TransferWithinTwoSteps : Prop :=
  ∀ s : State, s.Inv → s.Running → s.moves = [] → ∃ k t, k ≤ 2 ∧ s.runSteps k = .next t ∧
    (t.inReady = true ∨ t.outValid = true ∨ t.phase = .done)

/-- The model's form of DICT (log 6) makes equal dictionaries equal data: two canonical dictionaries that read alike are the same list
(R26, R42). -/
def Obligations.CanonicalDictionariesEqual : Prop :=
  ∀ d₁ d₂ : Dict, d₁.wf = true → d₂.wf = true → (∀ k, d₁.read k = d₂.read k) → d₁ = d₂

/-! ## Whole units -/

/-- A literal's four steps (R92, R99): from TOP with a control bit 1 to take, a byte offered and output accepted, the byte
is taken and emitted, and the run is at TOP again. -/
def Obligations.LiteralUnitTakesFourSteps : Prop :=
  ∀ (s : State) (d : Byte) (rest : List Byte), s.moves = [] → s.outReady = true → s.phase = .top →
    s.srcPos ≠ s.srcLen → s.ctrlCnt ≠ 0 → s.ctrlByte[0] = true → s.offered = d :: rest →
    ∃ t, s.runSteps 4 = .next t ∧ t.phase = .top ∧ t.output = s.output ++ [d] ∧ t.dstLen = s.dstLen + 1 ∧
      t.srcPos = s.srcPos + 1 ∧ t.ctrlCnt = s.ctrlCnt - 1 ∧ t.ctrlByte = s.ctrlByte >>> 1 ∧ t.offered = rest ∧
      t.status = s.status

/-- A token's 4 + length steps (R87, R92, R99): from TOP with a control bit 0 to take, both bytes offered and within the
stream, and output accepted, the run of `length` bytes is emitted, and at TOP the window sum holds again. -/
def Obligations.TokenUnitTakesLengthSteps : Prop :=
  ∀ (s : State) (b0 b1 : Byte) (rest : List Byte), s.Inv → s.moves = [] → s.outReady = true → s.phase = .top →
    s.srcPos.toNat + 2 ≤ s.srcLen.toNat → s.ctrlCnt ≠ 0 → s.ctrlByte[0] = false → s.offered = b0 :: b1 :: rest →
    ∃ t, s.runSteps (4 + tokenLength b1) = .next t ∧ t.phase = .top ∧
      t.output.length = s.output.length + tokenLength b1 ∧ t.output.take s.output.length = s.output ∧
      t.dstLen.toNat = s.dstLen.toNat + tokenLength b1 ∧ t.srcPos.toNat = s.srcPos.toNat + 2 ∧
      t.offered = rest ∧ t.copyRem = 0 ∧ t.winOrigin.toNat + t.winCtr.toNat = t.dstLen.toNat

/-- R86: a copy that is not a forward reference reads the output, 1 to 4096 bytes back: byte i is 0x00 where p + i < 0, else
the output byte at position p + i, one this same copy wrote included. -/
def Obligations.BackwardCopyReadsOutput : Prop :=
  ∀ s : State, s.Inv → s.moves = [] → s.outReady = true → s.phase = .copy →
    s.copySrc.toInt < s.dstLen.toNat →
    (s.dstLen.toNat : Int) - 4096 ≤ s.copySrc.toInt ∧
    ∃ t, s.runSteps s.copyRem.toNat = .next t ∧ t.phase = .top ∧
      t.output.length = s.output.length + s.copyRem.toNat ∧ t.output.take s.output.length = s.output ∧
      ∀ i, i < s.copyRem.toNat →
        t.output[s.output.length + i]? =
          if s.copySrc.toInt + i < 0 then some 0 else t.output[(s.copySrc.toInt + i).toNat]?

/-- R88: overlap: a copy from distance d = w - p with p ≥ 0 repeats the d bytes before w: output byte w + i equals output
byte w + (i mod d) - d. -/
def Obligations.OverlappingCopyRepeats : Prop :=
  ∀ (s : State) (d : Nat), s.Inv → s.moves = [] → s.outReady = true → s.phase = .copy → 1 ≤ d →
    0 ≤ s.copySrc.toInt → s.copySrc.toInt + d = s.dstLen.toNat →
    ∃ t, s.runSteps s.copyRem.toNat = .next t ∧ t.phase = .top ∧
      ∀ i, i < s.copyRem.toNat → t.output[s.output.length + i]? = t.output[s.output.length + i % d - d]?

/-- R83: a token is a forward reference exactly where the window wraps inside it and its offset is not below WIN_CTR; then
p = WIN_ORIGIN + offset is at most 17 past the write position, FWDREF is set, and byte i of the copy is the output byte at
p + i - 4096, or 0x00 where that is negative. -/
def Obligations.ForwardReferenceReads : Prop :=
  ∀ (s : State) (b1 : Byte) (rest : List Byte) (p : Int), s.Inv → s.moves = [] → s.outReady = true → s.phase = .br1 →
    s.offered = b1 :: rest →
    p = resolve (tokenOffset s.tokLo b1) (winAdvance s.winCtr s.winOrigin (tokenLength b1)).2 s.dstLen →
    ((s.dstLen.toNat : Int) ≤ p ↔
      4096 ≤ s.winCtr.toNat + tokenLength b1 ∧ s.winCtr.toNat ≤ (tokenOffset s.tokLo b1).toNat) ∧
    ((s.dstLen.toNat : Int) ≤ p →
      p = s.winOrigin.toNat + (tokenOffset s.tokLo b1).toNat ∧ p - s.dstLen.toNat ≤ 17 ∧
      ∃ t, s.runSteps (1 + tokenLength b1) = .next t ∧ t.phase = .top ∧ t.status.fwdref = true ∧
        t.output.length = s.output.length + tokenLength b1 ∧
        ∀ i, i < tokenLength b1 →
          t.output[s.output.length + i]? = if p + i - 4096 < 0 then some 0 else t.output[(p + i - 4096).toNat]?)

/-- R89: a byte of a token's copy reads a negative position exactly in the first window lap, where the window does not wrap
inside the token and the offset is not below the write position; then p = offset - 4096, and exactly the bytes
i < 4096 - offset do. -/
def Obligations.ZeroFillOnlyInFirstLap : Prop :=
  ∀ (s : State) (offset : WinPos) (length : Nat) (p : Int), s.Inv → s.phase = .br1 → 3 ≤ length → length ≤ 18 →
    p = resolve offset (winAdvance s.winCtr s.winOrigin length).2 s.dstLen →
    ((∃ i : Nat, i < length ∧ p + i < 0) ↔
      s.winOrigin = 0 ∧ s.winCtr.toNat + length < 4096 ∧ s.dstLen.toNat ≤ offset.toNat) ∧
    (p < 0 → p = (offset.toNat : Int) - 4096 ∧ s.dstLen.toNat = s.winCtr.toNat ∧
      ∀ i : Nat, (p + i < 0 ↔ i + offset.toNat < 4096)) ∧
    (4096 ≤ s.dstLen.toNat → 0 ≤ p)

/-! ## Whole runs -/

/-- R90: the output of a run is the textbook ring decoder's, byte for byte, whatever the host does in between: a run
follows it from START on, every step of either agent keeps this, and so at DONE the output and the end cause are those
of the bytes taken. -/
def Obligations.RunFollowsTextbookDecoder : Prop :=
  (∀ s : State, s.start.FollowsTextbook) ∧
  (∀ s t : State, s.Inv → s.FollowsTextbook → step s = .next t → t.FollowsTextbook) ∧
  ∀ s : State, s.FollowsTextbook → s.phase = .done → textbook s.input = (s.output, s.status.endCause)

/-- R99, R109: the decode contract, for a host that offers the whole stream before the run and accepts the output all
through it: the run reaches DONE within 4 × SRC_LEN + DST_LEN + 1 steps, having taken exactly the first SRC_LEN bytes, with
the textbook decoder's output and end cause of them, and DST_LEN the number of its output bytes. -/
def Obligations.ServedRunDecodes : Prop :=
  ∀ s : State, s.start.Served → ∃ k t, s.start.runSteps k = .next t ∧ t.phase = .done ∧
    k ≤ 4 * s.srcLen.toNat + t.dstLen.toNat + 1 ∧
    t.srcPos = s.srcLen ∧ t.input = s.offered.take s.srcLen.toNat ∧ t.offered = s.offered.drop s.srcLen.toNat ∧
    (t.output, t.status.endCause) = textbook (s.offered.take s.srcLen.toNat) ∧
    t.output.length = t.dstLen.toNat

/-! ## The consumer's signal -/

/-- The exact effect of the consumer's move (R106, R107): it drives `out_ready` and changes nothing else, and as the next
pending move it is what the step does. That `out_ready` is a level which a move sets, and that pending moves are made in the
order of the list, is the model's choice (log 4, log 1). -/
def Obligations.ReadyMoveEffect : Prop :=
  ∀ (s : State) (r : Bool),
    s.move (.ready r) = .next { s with outReady := r } ∧
    ∀ ms, s.moves = .ready r :: ms → step s = .next { s with moves := ms, outReady := r }
end

