-- ==== Sys2Proof/Laws/Decode.lean ====
section
/-!
SUPPORT. The fields of a token: taking apart what was put together gives the bytes back.
-/

namespace Sys2Proof

/-- The first byte of the token a decoder assembles is the byte it read. -/
@[simp] theorem tokenFirst_tokenOffset (b0 b1 : Byte) : tokenFirst (tokenOffset b0 b1) = b0 := by
  apply BitVec.eq_of_getLsbD_eq
  intro i hi
  simp only [tokenFirst, tokenOffset, BitVec.getLsbD_extractLsb', BitVec.getLsbD_append]
  simp [hi]

theorem tokenLength_bounds (b1 : Byte) : Config.minMatch ≤ tokenLength b1 ∧ tokenLength b1 ≤ Config.maxMatch := by
  have h := (tokenLcode b1).isLt
  simp only [tokenLength, Config.minMatch, Config.maxMatch]
  omega

/-- The second byte of the token a decoder assembles is the byte it read. -/
@[simp] theorem tokenSecond_tokenOffset (b0 b1 : Byte) :
    tokenSecond (tokenOffset b0 b1) (tokenLength b1) = b1 := by
  have h : BitVec.ofNat 4 (tokenLength b1 - Config.minMatch) = tokenLcode b1 := by
    simp [tokenLength]
  rw [tokenSecond, h]
  apply BitVec.eq_of_getLsbD_eq
  intro i hi
  simp only [tokenOffset, tokenLcode, BitVec.getLsbD_append, BitVec.getLsbD_extractLsb']
  by_cases hi4 : i < 4
  · simp [hi4]
  · have : i - 4 < 4 := by omega
    simp [hi4, this]
    rw [show 4 + (i - 4) = i by omega]

@[simp] theorem decodeAt_control (s : Byte) (rest : List Byte) :
    decodeAt .control (s :: rest) = .ok (.ctrl s, rest) := rfl

@[simp] theorem decodeAt_literal (d : Byte) (rest : List Byte) :
    decodeAt (.unit true) (d :: rest) = .ok (.lit d, rest) := rfl

@[simp] theorem decodeAt_token (b0 b1 : Byte) (rest : List Byte) :
    decodeAt (.unit false) (b0 :: b1 :: rest) = .ok (.bref (tokenOffset b0 b1) (tokenLength b1), rest) := rfl

/-- A decoder that has begun a group of control bits has eight of them (R58). -/
@[simp] theorem controlBits_length (b : Byte) : (controlBits b).length = Config.unitsPerControl := by
  simp [controlBits]

end Sys2Proof
end

