-- ==== Sys2Proof/Laws/Dict.lean ====
section
/-!
SUPPORT. The laws of the dictionary: a read after a write of the same slot gives the byte written, a write leaves every
other slot alone, and every operation keeps the canonical form.
-/

namespace Sys2Proof.Machine

theorem slotOf_lt (k : Nat) : slotOf k < Config.window := Nat.mod_lt _ (by decide)

theorem slotOf_of_lt {k : Nat} (h : k < Config.window) : slotOf k = k := Nat.mod_eq_of_lt h

theorem Dict.wfFrom_cons {low k : Nat} {v : Byte} {d : Dict} :
    Dict.wfFrom low ((k, v) :: d) = true ↔
      low ≤ k ∧ k < Config.window ∧ v ≠ Dict.unlisted ∧ Dict.wfFrom (k + 1) d = true := by
  simp [Dict.wfFrom, and_assoc]

theorem Dict.wfFrom_mono {low low' : Nat} {d : Dict} (hl : low ≤ low') (h : Dict.wfFrom low' d = true) :
    Dict.wfFrom low d = true := by
  cases d with
  | nil => rfl
  | cons c d =>
    rw [Dict.wfFrom_cons] at h ⊢
    exact ⟨hl.trans h.1, h.2⟩

/-- Slots below the first one that may be listed are not listed. -/
theorem Dict.get_below {low : Nat} {d : Dict} (h : Dict.wfFrom low d = true) {k : Nat} (hk : k < low) :
    d.get k = Dict.unlisted := by
  induction d generalizing low with
  | nil => rfl
  | cons c d ih =>
    obtain ⟨k', v⟩ := c
    rw [Dict.wfFrom_cons] at h
    rw [Dict.get, if_neg (by omega)]
    exact ih h.2.2.2 (by omega)

theorem Dict.set_wfFrom {low slot : Nat} {d : Dict} (h : Dict.wfFrom low d = true) (hl : low ≤ slot)
    (hs : slot < Config.window) (b : Byte) : Dict.wfFrom low (d.set slot b) = true := by
  induction d generalizing low with
  | nil =>
    rw [Dict.set]
    split
    · rfl
    · rw [Dict.wfFrom_cons]; exact ⟨hl, hs, ‹_›, rfl⟩
  | cons c d ih =>
    obtain ⟨k, v⟩ := c
    have h' := Dict.wfFrom_cons.mp h
    rw [Dict.set]
    split
    · rw [Dict.wfFrom_cons]; exact ⟨h'.1, h'.2.1, h'.2.2.1, ih h'.2.2.2 (by omega)⟩
    · split
      · split
        · exact Dict.wfFrom_mono (by omega) h'.2.2.2
        · subst_vars
          rw [Dict.wfFrom_cons]; exact ⟨hl, hs, ‹_›, h'.2.2.2⟩
      · split
        · exact h
        · rw [Dict.wfFrom_cons, Dict.wfFrom_cons]
          exact ⟨hl, hs, ‹_›, by omega, h'.2.1, h'.2.2.1, h'.2.2.2⟩

theorem Dict.get_set_same {low slot : Nat} {d : Dict} (h : Dict.wfFrom low d = true) (b : Byte) :
    (d.set slot b).get slot = b := by
  induction d generalizing low with
  | nil =>
    rw [Dict.set]
    split
    · simp_all [Dict.get]
    · simp [Dict.get]
  | cons c d ih =>
    obtain ⟨k, v⟩ := c
    have h' := Dict.wfFrom_cons.mp h
    rw [Dict.set]
    split
    · rw [Dict.get, if_neg (by omega)]; exact ih h'.2.2.2
    · split
      · split
        · subst_vars; exact Dict.get_below h'.2.2.2 (by omega)
        · simp [Dict.get]
      · split
        · rename_i hb
          rw [hb]; exact Dict.get_below (low := k) (by rw [Dict.wfFrom_cons]; exact ⟨le_refl _, h'.2⟩) (by omega)
        · simp [Dict.get]

theorem Dict.get_set_other {slot k : Nat} (d : Dict) (b : Byte) (hk : k ≠ slot) :
    (d.set slot b).get k = d.get k := by
  have hs : slot ≠ k := Ne.symm hk
  induction d with
  | nil =>
    rw [Dict.set]
    split
    · rfl
    · simp [Dict.get, hs]
  | cons c d ih =>
    obtain ⟨k', v⟩ := c
    rw [Dict.set]
    split
    · simp only [Dict.get, ih]
    · split
      · rename_i e
        split <;> simp [Dict.get, e, hs]
      · split <;> simp [Dict.get, hs]

/-- A write keeps the canonical form. -/
theorem Dict.write_wf {d : Dict} (h : d.wf = true) (k : Nat) (v : Byte) : (d.write k v).wf = true :=
  Dict.set_wfFrom h (Nat.zero_le _) (slotOf_lt k) v

/-- MemRead after MemWrite at the same slot (R42). -/
theorem Dict.read_write_same {d : Dict} (h : d.wf = true) {j k : Nat} (hjk : slotOf j = slotOf k) (v : Byte) :
    (d.write k v).read j = v := by
  rw [Dict.read, hjk]; exact Dict.get_set_same h v

/-- MemWrite has no effect beyond its slot (R48). -/
theorem Dict.read_write_other (d : Dict) {j k : Nat} (hjk : slotOf j ≠ slotOf k) (v : Byte) :
    (d.write k v).read j = d.read j :=
  Dict.get_set_other d v hjk

/-- Loading bytes one after the other gives a canonical dictionary, whatever they are. -/
theorem Dict.load_wf (cells : List (Nat × Byte)) : (Dict.load cells).wf = true := by
  suffices h : ∀ d : Dict, d.wf = true → (cells.foldl (fun d c => d.write c.1 c.2) d).wf = true from h [] rfl
  induction cells with
  | nil => exact fun _ h => h
  | cons c cells ih => exact fun d h => ih _ (Dict.write_wf h _ _)

/-- A new dictionary reads as zeros (R26). -/
@[simp] theorem Dict.read_nil (k : Nat) : Dict.read [] k = Config.zeroFill := rfl

/-- The dictionary of the reset state is canonical. -/
theorem Dict.reset_wf : State.reset.dict.wf = true := rfl

end Sys2Proof.Machine
end

