-- ==== Sys2Proof/Laws/State.lean ====
section
/-!
SUPPORT. One lemma per field for each operation on the whole state (finish, raiseOverrun, advanceWindow, start,
resetBlock), true by rfl, so that no proof unfolds a record update.
-/

namespace Sys2Proof.Machine

/-! ## finish -/

@[simp] theorem State.finish_srcLen (s : State) (c : EndCause) : (s.finish c).srcLen = s.srcLen := rfl
@[simp] theorem State.finish_srcPos (s : State) (c : EndCause) : (s.finish c).srcPos = s.srcPos := rfl
@[simp] theorem State.finish_dstLen (s : State) (c : EndCause) : (s.finish c).dstLen = s.dstLen := rfl
@[simp] theorem State.finish_winCtr (s : State) (c : EndCause) : (s.finish c).winCtr = s.winCtr := rfl
@[simp] theorem State.finish_winOrigin (s : State) (c : EndCause) : (s.finish c).winOrigin = s.winOrigin := rfl
@[simp] theorem State.finish_ctrlByte (s : State) (c : EndCause) : (s.finish c).ctrlByte = s.ctrlByte := rfl
@[simp] theorem State.finish_ctrlCnt (s : State) (c : EndCause) : (s.finish c).ctrlCnt = s.ctrlCnt := rfl
@[simp] theorem State.finish_litData (s : State) (c : EndCause) : (s.finish c).litData = s.litData := rfl
@[simp] theorem State.finish_tokLo (s : State) (c : EndCause) : (s.finish c).tokLo = s.tokLo := rfl
@[simp] theorem State.finish_copySrc (s : State) (c : EndCause) : (s.finish c).copySrc = s.copySrc := rfl
@[simp] theorem State.finish_copyRem (s : State) (c : EndCause) : (s.finish c).copyRem = s.copyRem := rfl
@[simp] theorem State.finish_phase (s : State) (c : EndCause) : (s.finish c).phase = .done := rfl
@[simp] theorem State.finish_status (s : State) (c : EndCause) : (s.finish c).status = { s.status with busy := false, done := true, endCause := c } := rfl
@[simp] theorem State.finish_dict (s : State) (c : EndCause) : (s.finish c).dict = s.dict := rfl
@[simp] theorem State.finish_input (s : State) (c : EndCause) : (s.finish c).input = s.input := rfl
@[simp] theorem State.finish_output (s : State) (c : EndCause) : (s.finish c).output = s.output := rfl
@[simp] theorem State.finish_offered (s : State) (c : EndCause) : (s.finish c).offered = s.offered := rfl
@[simp] theorem State.finish_outReady (s : State) (c : EndCause) : (s.finish c).outReady = s.outReady := rfl
@[simp] theorem State.finish_moves (s : State) (c : EndCause) : (s.finish c).moves = s.moves := rfl
@[simp] theorem State.finish_got (s : State) (c : EndCause) : (s.finish c).got = s.got := rfl
@[simp] theorem State.finish_resets (s : State) (c : EndCause) : (s.finish c).resets = s.resets := rfl

/-! ## raiseOverrun -/

/-- The discarded byte is not recorded (R111). -/
@[simp] theorem State.raiseOverrun_eq (s : State) (x : Byte) : s.raiseOverrun x = s.finish .overrun := rfl

/-! ## advanceWindow -/

@[simp] theorem State.advanceWindow_srcLen (s : State) (n : Nat) : (s.advanceWindow n).srcLen = s.srcLen := rfl
@[simp] theorem State.advanceWindow_srcPos (s : State) (n : Nat) : (s.advanceWindow n).srcPos = s.srcPos := rfl
@[simp] theorem State.advanceWindow_dstLen (s : State) (n : Nat) : (s.advanceWindow n).dstLen = s.dstLen := rfl
@[simp] theorem State.advanceWindow_winCtr (s : State) (n : Nat) : (s.advanceWindow n).winCtr = (winAdvance s.winCtr s.winOrigin n).1 := rfl
@[simp] theorem State.advanceWindow_winOrigin (s : State) (n : Nat) : (s.advanceWindow n).winOrigin = (winAdvance s.winCtr s.winOrigin n).2 := rfl
@[simp] theorem State.advanceWindow_ctrlByte (s : State) (n : Nat) : (s.advanceWindow n).ctrlByte = s.ctrlByte := rfl
@[simp] theorem State.advanceWindow_ctrlCnt (s : State) (n : Nat) : (s.advanceWindow n).ctrlCnt = s.ctrlCnt := rfl
@[simp] theorem State.advanceWindow_litData (s : State) (n : Nat) : (s.advanceWindow n).litData = s.litData := rfl
@[simp] theorem State.advanceWindow_tokLo (s : State) (n : Nat) : (s.advanceWindow n).tokLo = s.tokLo := rfl
@[simp] theorem State.advanceWindow_copySrc (s : State) (n : Nat) : (s.advanceWindow n).copySrc = s.copySrc := rfl
@[simp] theorem State.advanceWindow_copyRem (s : State) (n : Nat) : (s.advanceWindow n).copyRem = s.copyRem := rfl
@[simp] theorem State.advanceWindow_phase (s : State) (n : Nat) : (s.advanceWindow n).phase = s.phase := rfl
@[simp] theorem State.advanceWindow_status (s : State) (n : Nat) : (s.advanceWindow n).status = s.status := rfl
@[simp] theorem State.advanceWindow_dict (s : State) (n : Nat) : (s.advanceWindow n).dict = s.dict := rfl
@[simp] theorem State.advanceWindow_input (s : State) (n : Nat) : (s.advanceWindow n).input = s.input := rfl
@[simp] theorem State.advanceWindow_output (s : State) (n : Nat) : (s.advanceWindow n).output = s.output := rfl
@[simp] theorem State.advanceWindow_offered (s : State) (n : Nat) : (s.advanceWindow n).offered = s.offered := rfl
@[simp] theorem State.advanceWindow_outReady (s : State) (n : Nat) : (s.advanceWindow n).outReady = s.outReady := rfl
@[simp] theorem State.advanceWindow_moves (s : State) (n : Nat) : (s.advanceWindow n).moves = s.moves := rfl
@[simp] theorem State.advanceWindow_got (s : State) (n : Nat) : (s.advanceWindow n).got = s.got := rfl
@[simp] theorem State.advanceWindow_resets (s : State) (n : Nat) : (s.advanceWindow n).resets = s.resets := rfl

/-! ## start -/

@[simp] theorem State.start_srcLen (s : State) : (s.start).srcLen = s.srcLen := rfl
@[simp] theorem State.start_srcPos (s : State) : (s.start).srcPos = 0 := rfl
@[simp] theorem State.start_dstLen (s : State) : (s.start).dstLen = 0 := rfl
@[simp] theorem State.start_winCtr (s : State) : (s.start).winCtr = 0 := rfl
@[simp] theorem State.start_winOrigin (s : State) : (s.start).winOrigin = 0 := rfl
@[simp] theorem State.start_ctrlByte (s : State) : (s.start).ctrlByte = 0 := rfl
@[simp] theorem State.start_ctrlCnt (s : State) : (s.start).ctrlCnt = 0 := rfl
@[simp] theorem State.start_litData (s : State) : (s.start).litData = 0 := rfl
@[simp] theorem State.start_tokLo (s : State) : (s.start).tokLo = 0 := rfl
@[simp] theorem State.start_copySrc (s : State) : (s.start).copySrc = 0 := rfl
@[simp] theorem State.start_copyRem (s : State) : (s.start).copyRem = 0 := rfl
@[simp] theorem State.start_phase (s : State) : (s.start).phase = .top := rfl
@[simp] theorem State.start_status (s : State) : (s.start).status = Status.started := rfl
@[simp] theorem State.start_dict (s : State) : (s.start).dict = [] := rfl
@[simp] theorem State.start_input (s : State) : (s.start).input = [] := rfl
@[simp] theorem State.start_output (s : State) : (s.start).output = [] := rfl
@[simp] theorem State.start_offered (s : State) : (s.start).offered = s.offered := rfl
@[simp] theorem State.start_outReady (s : State) : (s.start).outReady = s.outReady := rfl
@[simp] theorem State.start_moves (s : State) : (s.start).moves = s.moves := rfl
@[simp] theorem State.start_got (s : State) : (s.start).got = s.got := rfl
@[simp] theorem State.start_resets (s : State) : (s.start).resets = s.resets := rfl

/-! ## resetBlock -/

@[simp] theorem State.resetBlock_srcLen (s : State) : (s.resetBlock).srcLen = 0 := rfl
@[simp] theorem State.resetBlock_srcPos (s : State) : (s.resetBlock).srcPos = 0 := rfl
@[simp] theorem State.resetBlock_dstLen (s : State) : (s.resetBlock).dstLen = 0 := rfl
@[simp] theorem State.resetBlock_winCtr (s : State) : (s.resetBlock).winCtr = 0 := rfl
@[simp] theorem State.resetBlock_winOrigin (s : State) : (s.resetBlock).winOrigin = 0 := rfl
@[simp] theorem State.resetBlock_ctrlByte (s : State) : (s.resetBlock).ctrlByte = 0 := rfl
@[simp] theorem State.resetBlock_ctrlCnt (s : State) : (s.resetBlock).ctrlCnt = 0 := rfl
@[simp] theorem State.resetBlock_litData (s : State) : (s.resetBlock).litData = 0 := rfl
@[simp] theorem State.resetBlock_tokLo (s : State) : (s.resetBlock).tokLo = 0 := rfl
@[simp] theorem State.resetBlock_copySrc (s : State) : (s.resetBlock).copySrc = 0 := rfl
@[simp] theorem State.resetBlock_copyRem (s : State) : (s.resetBlock).copyRem = 0 := rfl
@[simp] theorem State.resetBlock_phase (s : State) : (s.resetBlock).phase = .idle := rfl
@[simp] theorem State.resetBlock_status (s : State) : (s.resetBlock).status = Status.reset := rfl
@[simp] theorem State.resetBlock_dict (s : State) : (s.resetBlock).dict = Dict.load (Config.dictAfterReset s.resets) := rfl
@[simp] theorem State.resetBlock_input (s : State) : (s.resetBlock).input = [] := rfl
@[simp] theorem State.resetBlock_output (s : State) : (s.resetBlock).output = [] := rfl
@[simp] theorem State.resetBlock_offered (s : State) : (s.resetBlock).offered = s.offered := rfl
@[simp] theorem State.resetBlock_outReady (s : State) : (s.resetBlock).outReady = s.outReady := rfl
@[simp] theorem State.resetBlock_moves (s : State) : (s.resetBlock).moves = s.moves := rfl
@[simp] theorem State.resetBlock_got (s : State) : (s.resetBlock).got = s.got := rfl
@[simp] theorem State.resetBlock_resets (s : State) : (s.resetBlock).resets = s.resets + 1 := rfl

end Sys2Proof.Machine
end

