-- ==== Sys2Proof/Laws/Ops.lean ====
section
/-!
SUPPORT. What each shared operation can do, said once: the port transfers, the hold, the arithmetic of the window, and
the host's register writes.
-/

namespace Sys2Proof.Machine

/-! ## The port transfers -/

/-- InTake holds exactly where nothing is offered; else the byte is taken and counted (R40). -/
theorem State.inTake_eq_some {s t : State} {b : Byte} :
    s.inTake b = some t ↔ ∃ x rest, s.offered = x :: rest ∧
      t = { s with offered := rest, input := s.input ++ [b], srcPos := s.srcPos + 1 } := by
  cases h : s.offered with
  | nil => simp [State.inTake, h]
  | cons x rest => simp [State.inTake, h, eq_comm]

theorem State.inTake_of_nil {s : State} (h : s.offered = []) (b : Byte) : s.inTake b = none := by
  simp [State.inTake, h]

theorem State.inTake_of_cons {s : State} {x : Byte} {rest : List Byte} (h : s.offered = x :: rest) (b : Byte) :
    s.inTake b = some { s with offered := rest, input := s.input ++ [b], srcPos := s.srcPos + 1 } := by
  simp [State.inTake, h]

/-- Emit holds exactly where the consumer does not accept; else transfer, dictionary write and count are one (R41). -/
theorem State.emit_eq_some {s t : State} {v : Byte} :
    s.emit v = some t ↔ s.outReady = true ∧
      t = { s with output := s.output ++ [v], dict := s.dict.write s.dstLen.toNat v, dstLen := s.dstLen + 1 } := by
  cases h : s.outReady <;> simp [State.emit, h, eq_comm]

theorem State.emit_of_not_ready {s : State} (h : s.outReady = false) (v : Byte) : s.emit v = none := by
  simp [State.emit, h]

theorem State.emit_of_ready {s : State} (h : s.outReady = true) (v : Byte) :
    s.emit v = some { s with
      output := s.output ++ [v], dict := s.dict.write s.dstLen.toNat v, dstLen := s.dstLen + 1 } := by
  simp [State.emit, h]

/-- A step without its transfer changes nothing (R9). -/
@[simp] theorem State.after_none (s : State) (k : State → State) : s.after none k = s := rfl

@[simp] theorem State.after_some (s t : State) (k : State → State) : s.after (some t) k = k t := rfl

/-! ## The window -/

theorem winAdvance_of_wrap {ctr : WinPos} {n : Nat} (origin : BitVec 32) (h : 4096 ≤ ctr.toNat + n) :
    winAdvance ctr origin n = (BitVec.ofNat 12 (ctr.toNat + n - 4096), origin + 4096#32) := by
  simp [winAdvance, Config.window, h]

theorem winAdvance_of_stay {ctr : WinPos} {n : Nat} (origin : BitVec 32) (h : ctr.toNat + n < 4096) :
    winAdvance ctr origin n = (BitVec.ofNat 12 (ctr.toNat + n), origin) := by
  simp [winAdvance, Config.window, Nat.not_le.mpr h]

theorem resolve_behind {offset : WinPos} {org2 w : BitVec 32} (h : offset.toNat + org2.toNat < w.toNat) :
    resolve offset org2 w = offset.toNat + org2.toNat := by
  simp only [resolve]
  rw [if_neg (by omega)]

theorem resolve_corrected {offset : WinPos} {org2 w : BitVec 32} (h : w.toNat ≤ offset.toNat + org2.toNat) :
    resolve offset org2 w = (offset.toNat : Int) + org2.toNat - 4096 := by
  simp only [resolve]
  rw [if_pos (by omega)]
  rfl

/-! ## The host's register writes -/

/-- All a register write can do: nothing, START, or a new SRC_LEN, the last two only while no run is in progress
(R101, R102, R104). -/
theorem State.writeReg_cases (s : State) (x : Word) (r : Reg) :
    s.writeReg x r = s ∨
    (s.status.busy = false ∧ r = .ctrl ∧ x[0] = true ∧ s.writeReg x r = s.start) ∨
    (s.status.busy = false ∧ r = .srcLen ∧ s.writeReg x r = { s with srcLen := x.extractLsb' 0 24 }) := by
  cases r with
  | ctrl => cases hb : s.status.busy <;> cases hx : x[0] <;> simp [State.writeReg, State.writeCtrl, hb, hx]
  | srcLen => cases hb : s.status.busy <;> simp [State.writeReg, State.writeSrcLen, hb]
  | status | srcPos | dstLen | state | winOrigin | reserved => exact .inl rfl

/-- All a host move that answers a next state can do. -/
theorem State.move_cases {s t : State} {m : HostMove} (h : s.move m = .next t) :
    (∃ offset x, m = .regWrite offset 32 x ∧ offset.toNat % 4 = 0 ∧ t = s.writeReg x (regAt offset)) ∨
    (∃ offset, m = .regRead offset 32 ∧ offset.toNat % 4 = 0 ∧
      t = { s with got := s.got ++ [s.readReg (regAt offset)] }) ∨
    (∃ b, m = .offer b ∧ t = { s with offered := s.offered ++ [b] }) ∨
    (m = .withdraw ∧ t = { s with offered := [] }) ∨
    (∃ r, m = .ready r ∧ t = { s with outReady := r }) ∨
    (m = .reset ∧ t = s.resetBlock) ∨
    (m = .decoder ∧ s.decoderStep = .next t) := by
  cases m with
  | regWrite offset width x =>
    simp only [State.move] at h
    split at h
    · simp_all [accessDefined]
    · cases h
  | regRead offset width =>
    simp only [State.move] at h
    split at h
    · simp_all [accessDefined]
    · cases h
  | offer b => simp_all [State.move]
  | withdraw => simp_all [State.move]
  | ready r => simp_all [State.move]
  | reset => simp_all [State.move]
  | decoder => simp_all [State.move]

end Sys2Proof.Machine
end

