-- ==== Sys2Proof/Laws/PerInstr.lean ====
section
/-!
SUPPORT. Statements made for every instruction, one lemma per constructor (LAWS.json names the families).
-/

namespace Sys2Proof.Laws.UnitSize

/-- An instruction's encoding has the number of bytes the spec gives it: 1 for a control byte and a literal, 2 for a token
(spec/30_encoding.md R61). -/
def Statement (i : Instr) : Prop := (encode i).length = i.size

theorem ctrl (s : Byte) : Statement (.ctrl s) := rfl

theorem lit (d : Byte) : Statement (.lit d) := rfl

theorem bref (offset : WinPos) (length : Nat) : Statement (.bref offset length) := rfl

end Sys2Proof.Laws.UnitSize
end

