-- ==== Sys2Proof/Laws/Step.lean ====
section
/-!
SUPPORT. What a meaning, a step of the decoder and a step of the machine can do, said once; the proofs about steps cite
these and unfold nothing.
-/

namespace Sys2Proof.Machine

/-! ## The meanings -/

theorem execCtrl_next {b : Byte} {s t : State} :
    exec (.ctrl b) s = .next t ↔ s.phase = .refill ∧ t = s.refill b := by
  cases h : s.phase <;> simp [exec, execCtrl, h, eq_comm]

theorem execLit_next {d : Byte} {s t : State} :
    exec (.lit d) s = .next t ↔ (s.phase = .lit ∧ t = s.literalIn d) ∨ (s.phase = .litOut ∧ t = s.literalOut) := by
  cases h : s.phase <;> simp [exec, execLit, h, eq_comm]

theorem execBref_next {offset : WinPos} {length : Nat} {s t : State} :
    exec (.bref offset length) s = .next t ↔
      (s.phase = .br0 ∧ t = s.tokenStart (tokenFirst offset)) ∨
      (s.phase = .br1 ∧ t = s.tokenResolve (tokenSecond offset length)) ∨
      (s.phase = .copy ∧ t = s.copyStep) := by
  cases h : s.phase <;> simp [exec, execBref, h, eq_comm]

/-! ## The phases' steps with their transfer -/

theorem State.refill_of_cons {s : State} {x : Byte} {rest : List Byte} (h : s.offered = x :: rest) (b : Byte) :
    s.refill b =
      let t := { s with
        offered := rest, input := s.input ++ [b], srcPos := s.srcPos + 1, ctrlByte := b, ctrlCnt := 8 }
      if s.srcPos.toNat + 1 = s.srcLen.toNat then t.finish .tail else { t with phase := .unit } := by
  rw [State.refill, State.inTake_of_cons h, State.after_some]

theorem State.literalIn_of_cons {s : State} {x : Byte} {rest : List Byte} (h : s.offered = x :: rest) (d : Byte) :
    s.literalIn d = { s with
      offered := rest, input := s.input ++ [d], srcPos := s.srcPos + 1, litData := d, phase := .litOut } := by
  rw [State.literalIn, State.inTake_of_cons h, State.after_some]

theorem State.literalOut_of_ready {s : State} (h : s.outReady = true) :
    s.literalOut = { s with
      output := s.output ++ [s.litData], dict := s.dict.write s.dstLen.toNat s.litData, dstLen := s.dstLen + 1
      winCtr := (winAdvance s.winCtr s.winOrigin 1).1, winOrigin := (winAdvance s.winCtr s.winOrigin 1).2
      phase := .top } := by
  rw [State.literalOut, State.emit_of_ready h, State.after_some]
  rfl

theorem State.tokenStart_of_cons {s : State} {x : Byte} {rest : List Byte} (h : s.offered = x :: rest) (b0 : Byte) :
    s.tokenStart b0 =
      let t := { s with offered := rest, input := s.input ++ [b0], srcPos := s.srcPos + 1 }
      if s.srcLen.toNat < s.srcPos.toNat + 2 then t.finish .overrun else { t with tokLo := b0, phase := .br1 } := by
  rw [State.tokenStart, State.inTake_of_cons h, State.after_some]
  rfl

theorem State.tokenResolve_of_cons {s : State} {x : Byte} {rest : List Byte} (h : s.offered = x :: rest) (b1 : Byte) :
    s.tokenResolve b1 =
      let a := winAdvance s.winCtr s.winOrigin (tokenLength b1)
      let p := resolve (tokenOffset s.tokLo b1) a.2 s.dstLen
      { s with
        offered := rest, input := s.input ++ [b1], srcPos := s.srcPos + 1, winCtr := a.1, winOrigin := a.2
        status := s.status.flagForward p s.dstLen
        copySrc := BitVec.ofInt 33 p, copyRem := BitVec.ofNat 5 (tokenLength b1), phase := .copy } := by
  rw [State.tokenResolve, State.inTake_of_cons h, State.after_some]
  rfl

theorem State.copyStep_of_ready {s : State} (h : s.outReady = true) :
    s.copyStep = { s with
      output := s.output ++ [s.copyByte], dict := s.dict.write s.dstLen.toNat s.copyByte, dstLen := s.dstLen + 1
      status := s.status.flagZeroFill s.copySrc.toInt, copySrc := s.copySrc + 1, copyRem := s.copyRem - 1
      phase := if s.copyRem = 1 then .top else .copy } := by
  rw [State.copyStep, State.emit_of_ready h, State.after_some]

/-! ## The phases' steps without it -/

theorem State.literalOut_of_not_ready {s : State} (h : s.outReady = false) : s.literalOut = s := by
  rw [State.literalOut, State.emit_of_not_ready h, State.after_none]

theorem State.copyStep_of_not_ready {s : State} (h : s.outReady = false) : s.copyStep = s := by
  rw [State.copyStep, State.emit_of_not_ready h, State.after_none]

/-! ## A step of the decoder -/

/-- All a step of the decoder can do: the one rule its phase names, with the byte at the port where the phase takes one,
or nothing where it waits (R25). -/
theorem State.decoderStep_cases (s : State) :
    (s.phase = .idle ∧ s.decoderStep = .next s) ∨
    (s.phase = .done ∧ s.decoderStep = .next s) ∨
    (s.phase = .top ∧ s.decoderStep = .next s.loopTest) ∨
    (s.phase = .unit ∧ s.decoderStep = .next s.extractBit) ∨
    (s.inReady = true ∧ s.offered = [] ∧ s.decoderStep = .next s) ∨
    (s.outValid = true ∧ s.outReady = false ∧ s.decoderStep = .next s) ∨
    (∃ b rest, s.phase = .refill ∧ s.offered = b :: rest ∧ s.decoderStep = .next (s.refill b)) ∨
    (∃ b rest, s.phase = .lit ∧ s.offered = b :: rest ∧ s.decoderStep = .next (s.literalIn b)) ∨
    (s.phase = .litOut ∧ s.outReady = true ∧ s.decoderStep = .next s.literalOut) ∨
    (∃ b rest, s.phase = .br0 ∧ s.offered = b :: rest ∧ s.decoderStep = .next (s.tokenStart b)) ∨
    (∃ b rest, s.phase = .br1 ∧ s.offered = b :: rest ∧ s.decoderStep = .next (s.tokenResolve b)) ∨
    (s.phase = .copy ∧ s.outReady = true ∧ s.decoderStep = .next s.copyStep) := by
  cases hp : s.phase with
  | idle => simp [State.decoderStep, hp]
  | done => simp [State.decoderStep, hp]
  | top => simp [State.decoderStep, hp]
  | unit => simp [State.decoderStep, hp]
  | refill =>
    cases ho : s.offered with
    | nil => simp [State.decoderStep, State.unitStep, State.unitInProgress, unitAt, decodeAt, hp, ho, State.inReady]
    | cons b rest =>
      simp [State.decoderStep, State.unitStep, State.unitInProgress, unitAt, hp, ho, exec, execCtrl]
  | lit =>
    cases ho : s.offered with
    | nil => simp [State.decoderStep, State.unitStep, State.unitInProgress, unitAt, decodeAt, hp, ho, State.inReady]
    | cons b rest =>
      simp [State.decoderStep, State.unitStep, State.unitInProgress, unitAt, hp, ho, exec, execLit]
  | litOut =>
    have h : s.decoderStep = .next s.literalOut := by
      simp [State.decoderStep, State.unitStep, State.unitInProgress, unitAt, hp, exec, execLit]
    cases hr : s.outReady with
    | false => simp [h, State.literalOut_of_not_ready hr, State.outValid, hp]
    | true => simp [h]
  | br0 =>
    cases ho : s.offered with
    | nil => simp [State.decoderStep, State.unitStep, State.unitInProgress, unitAt, decodeAt, hp, ho, State.inReady]
    | cons b rest =>
      cases rest <;> simp [State.decoderStep, State.unitStep, State.unitInProgress, unitAt, hp, ho, exec, execBref]
  | br1 =>
    cases ho : s.offered with
    | nil => simp [State.decoderStep, State.unitStep, State.unitInProgress, unitAt, decodeAt, hp, ho, State.inReady]
    | cons b rest =>
      simp [State.decoderStep, State.unitStep, State.unitInProgress, unitAt, hp, ho, exec, execBref]
  | copy =>
    have h : s.decoderStep = .next s.copyStep := by
      simp [State.decoderStep, State.unitStep, State.unitInProgress, hp, exec, execBref]
    cases hr : s.outReady with
    | false => simp [h, State.copyStep_of_not_ready hr, State.outValid, hp]
    | true => simp [h]

/-! ## A step of the machine -/

/-- With no move pending, a step is the decoder's own. -/
theorem step_of_no_moves {s : State} (h : s.moves = []) : step s = s.decoderStep := by
  simp [step, h]

/-- Otherwise it is the first move, made in the state that has the others still to come. -/
theorem step_of_move {s : State} {m : HostMove} {rest : List HostMove} (h : s.moves = m :: rest) :
    step s = State.move { s with moves := rest } m := by
  simp [step, h]

end Sys2Proof.Machine
end

