-- ==== Sys2Proof/Tests/Slice0.lean ====
section
/-!
SUPPORT. Tests of the model, their expected values taken from spec/95_test_vectors.md and the rules' own examples; the
smoke tests of WellFormed; and for every statement that has hypotheses a witness that meets them.
-/

namespace Sys2Proof.Tests

open Sys2Proof Sys2Proof.Machine

/-! ## WellFormed -/

/-- R63: a run of 2 bytes cannot be encoded. -/
theorem test_longEnough_refuses : (Instr.bref 0 2).longEnough = false ∧ (Instr.bref 0 2).wellFormed = false := by decide

/-- R63: a run of 19 bytes cannot be encoded. -/
theorem test_shortEnough_refuses : (Instr.bref 0 19).shortEnough = false ∧ (Instr.bref 0 19).wellFormed = false := by
  decide

/-- R63: 3 and 18 can. -/
theorem test_wellFormed_bounds : (Instr.bref 4095 3).wellFormed = true ∧ (Instr.bref 0 18).wellFormed = true := by decide

/-! ## Decoding: words from 95_test_vectors.md section 2 and R58 to R64 -/

/-- `00 00` is offset 0, length 3; `FF FF` is 4095, 18; `23 12` is 0x123, 5. -/
theorem test_decode_bref :
    decodeAt (.unit false) [0x00, 0x00] = .ok (.bref 0 3, []) ∧
    decodeAt (.unit false) [0xFF, 0xFF] = .ok (.bref 4095 18, []) ∧
    decodeAt (.unit false) [0x23, 0x12] = .ok (.bref 0x123 5, []) := ⟨rfl, rfl, rfl⟩

/-- `34 A7` is 0xA34, 10; `FE F1` is 4094, 4. -/
theorem test_decode_bref_nibbles :
    decodeAt (.unit false) [0b00110100, 0b10100111] = .ok (.bref 0xA34 10, []) ∧
    decodeAt (.unit false) [0b11111110, 0b11110001] = .ok (.bref 4094 4, []) := ⟨rfl, rfl⟩

/-- R59: a literal is its byte; R58: a control byte is its byte. -/
theorem test_decode_lit_ctrl :
    decodeAt (.unit true) [0b01000001, 0x77] = .ok (.lit 0x41, [0x77]) ∧
    decodeAt .control [0b01111111, 0x41] = .ok (.ctrl 0x7F, [0x41]) := ⟨rfl, rfl⟩

/-- What the decoder rejects, by name. -/
theorem test_decode_rejects :
    decodeAt (.unit false) [0x12] = .error .tokenCutOff ∧ decodeAt .control [] = .error .noByte ∧
    decodeAt (.unit true) [] = .error .noByte ∧ readTableWord 24 (2 ^ 17) = .error .notADecodeWord ∧
    decodeTableWord 24 (2 ^ 17) = none := ⟨rfl, rfl, rfl, rfl, rfl⟩

/-- R64: U[16] = 1 is LIT with D = U[7:0]; U[16] = 0 is BREF. `A7 34` above U[16] = 0 is the token `34 A7`. -/
theorem test_decodeTableWord :
    decodeTableWord 8 0x7F = some (.ctrl 0x7F) ∧ decodeTableWord 24 0x10041 = some (.lit 0x41) ∧
    decodeTableWord 24 0x0A734 = some (.bref 0xA34 10) := ⟨rfl, rfl, rfl⟩

/-- R64: the decode words of LIT and BREF; CTRL has none. -/
theorem test_encodeWord :
    encodeWord (.lit 0x41) = some 0x10041 ∧ encodeWord (.bref 0xA34 10) = some 0x0A734 ∧
    encodeWord (.ctrl 0) = none := ⟨rfl, rfl, rfl⟩

/-- 95_test_vectors.md P1: the program's bytes, its control bytes put in by UNITS. -/
theorem test_assemble_P1 :
    assemble (units (lits [0x41, 0x42, 0x52, 0x41, 0x43, 0x41, 0x44] ++
      [.bref 0 4, .bref 10 3, .lit 0x21, .bref 4000 3])) =
      [0x7F, 0x41, 0x42, 0x52, 0x41, 0x43, 0x41, 0x44, 0x00, 0x01, 0x02, 0x0A, 0x00, 0x21, 0xA0, 0xF0] := by decide

/-- R68: BREFD at w = 15 with distance 111 is the token of P1 with offset 4000; BASE's last is dist=256 at w = 4064. -/
theorem test_brefd : brefd 15 111 3 = .bref 4000 3 ∧ brefd 4064 256 16 = .bref 3808 16 := by decide

/-! ## Small states -/

/-- A run that has taken `p` bytes of a stream of `srcLen` and emitted `n` of value 0x00, with `cnt` control bits left in
`byte`, a copy of `rem` more bytes from `src` and the consumer ready. -/
def zeroRun (phase : Phase) (srcLen p n rem : Nat) (src : Int) (cnt : Nat) (byte : Byte) : State :=
  { State.reset with
    srcLen := BitVec.ofNat 24 srcLen, srcPos := BitVec.ofNat 24 p, dstLen := BitVec.ofNat 32 n
    winCtr := BitVec.ofNat 12 (n + rem), winOrigin := BitVec.ofNat 32 ((n + rem) / 4096 * 4096)
    copySrc := BitVec.ofInt 33 src, copyRem := BitVec.ofNat 5 rem
    ctrlCnt := BitVec.ofNat 4 cnt, ctrlByte := byte, phase := phase
    status := match phase with
      | .idle => Status.reset
      | .done => { Status.reset with done := true, endCause := .clean }
      | .top | .refill | .unit | .lit | .litOut | .br0 | .br1 | .copy => Status.started
    input := List.replicate p 0, output := List.replicate n 0, outReady := true }

/-- The next state, if there is one. -/
def nextOf (o : Host.Outcome State Fault Refusal) : Option State :=
  match o with
  | .next t => some t
  | .fault _ => none
  | .refused _ => none

/-! ## CTRL, TOP and UNIT (95_test_vectors.md section 2.1) -/

/-- R69's example: the control byte 0xFF of a stream of 4 gives CTRL_BYTE 0xFF, CTRL_CNT 8, SRC_POS 1 and UNIT. -/
theorem test_ctrl_refill :
    (nextOf (exec (.ctrl 0xFF) { zeroRun .refill 4 0 0 0 0 0 0 with offered := [0xFF, 0x41] })).map
      (fun t => (t.ctrlByte, t.ctrlCnt, t.srcPos, t.phase, t.offered)) = some (0xFF, 8, 1, .unit, [0x41]) := by decide

/-- C5: a control byte alone is a tail, STATUS 0xA, CTRL_CNT 8. -/
theorem test_ctrl_tail :
    (nextOf (exec (.ctrl 0) { zeroRun .refill 1 0 0 0 0 0 0 with offered := [0x00] })).map
      (fun t => (t.status.word, t.ctrlCnt, t.srcPos, t.phase)) = some (0xA, 8, 1, .done) := by decide

/-- R71 and C1: bit 0 is used first and a 0 is shifted in: 0x05 is a literal and leaves 0x02 with 7 bits. -/
theorem test_unit_bit_zero_first :
    ((zeroRun .unit 5 1 0 0 0 8 0x05).extractBit.phase, (zeroRun .unit 5 1 0 0 0 8 0x05).extractBit.ctrlByte,
      (zeroRun .unit 5 1 0 0 0 8 0x05).extractBit.ctrlCnt) = (.lit, 0x02, 7) := by decide

/-- T0 and H6: SRC_LEN 0 stops at the first TOP, STATUS 0x6. -/
theorem test_top_empty_run :
    (nextOf (step (zeroRun .top 0 0 0 0 0 0 0))).map (fun t => (t.status.word, t.phase)) = some (0x6, .done) := by decide

/-! ## LIT (section 2.2) -/

/-- R75's example: the byte 0x41 at position 1 goes to LIT_DATA, and SRC_POS is 2. -/
theorem test_lit_input :
    (nextOf (exec (.lit 0x41) { zeroRun .lit 4 1 0 0 0 7 0x7F with offered := [0x41, 0x42] })).map
      (fun t => (t.litData, t.srcPos, t.phase, t.output)) = some (0x41, 2, .litOut, []) := by decide

/-- L2: at WIN_CTR 4095 the counter wraps: output byte 0x5A, DICT[4095] = 0x5A, DST_LEN 4096, WIN_CTR 0, WIN_ORIGIN 4096. -/
theorem test_lit_output_wraps :
    (nextOf (exec (.lit 0x5A) { State.reset with
        phase := .litOut, outReady := true, litData := 0x5A, dstLen := 4095, winCtr := 4095 })).map
      (fun t => (t.output, t.dict.get 4095, t.dstLen, t.winCtr, t.winOrigin, t.phase)) =
      some ([0x5A], 0x5A, 4096, 0, 4096, .top) := by decide

/-! ## BREF (sections 1 and 2.4) -/

/-- R79's example and T1: with one byte left 0x05 is discarded: SRC_POS 2, OVERRUN, DST_LEN 0, STATUS 0xE. -/
theorem test_bref_overrun :
    (nextOf (step { zeroRun .br0 2 1 0 0 0 7 0 with offered := [0x05] })).map
      (fun t => (t.srcPos, t.status.word, t.dstLen, t.tokLo, t.output)) = some (2, 0xE, 0, 0, []) := by decide

/-- V2a, R80's example: at w = 2 the token `00 03` is offset 0, length 6: WIN_CTR 8, COPY_SRC 0, COPY_REM 6. -/
theorem test_bref_resolve :
    (nextOf (step { zeroRun .br1 5 4 2 0 0 5 0 with offered := [0x03] })).map
      (fun t => (t.winCtr, t.winOrigin, t.copySrc.toInt, t.copyRem, t.status.fwdref, t.phase)) =
      some (8, 0, 0, 6, false, .copy) := by decide

/-- W1: at WIN_CTR 4090 the token with offset 4092 and length 8 is a forward reference: p = 4092, WIN_CTR 2. -/
theorem test_bref_forward :
    (nextOf (step { State.reset with
        phase := .br1, status := Status.started, dstLen := 4090, winCtr := 4090, tokLo := 0xFC, offered := [0xF5] })).map
      (fun t => (t.copySrc.toInt, t.winCtr, t.winOrigin, t.status.fwdref)) = some (4092, 2, 4096, true) := by decide

/-- V3a: a read at position -2 emits 0x00 and sets ZFILL, at the slot of DST_LEN. -/
theorem test_copy_zero_fill :
    (nextOf (step { zeroRun .copy 5 5 2 4 (-2) 5 0 with output := [0x41, 0x42], dict := [(0, 0x41), (1, 0x42)] })).map
      (fun t => (t.output, t.copySrc.toInt, t.copyRem, t.status.zfill, t.phase)) =
      some ([0x41, 0x42, 0x00], -1, 3, true, .copy) := by decide

/-- W4: at distance 4096 the read hits the slot its own step writes and returns the old byte 0x04. -/
theorem test_copy_reads_before_write :
    (nextOf (exec (.bref 4 5) { State.reset with
        phase := .copy, outReady := true, dstLen := 4100, copySrc := 4, copyRem := 1, dict := [(4, 0x04)] })).map
      (fun t => (t.output, t.dict, t.phase)) = some ([0x04], [(4, 0x04)], .top) := by decide

/-! ## The textbook decoder, the host and the table words -/

/-- V3a and V5 on the textbook decoder. -/
theorem test_textbook :
    textbook [0x03, 0x41, 0x42, 0xFE, 0xF1] = ([0x41, 0x42, 0x00, 0x00, 0x41, 0x42], .clean) ∧
    textbook [0xF7, 0x41, 0x42, 0x43, 0x00] = ([0x41, 0x42, 0x43], .overrun) := by decide

/-- V1's end state: STATE reads 0x091F5003. -/
theorem test_state_word : (zeroRun .done 4 4 3 0 0 5 0x1F).readReg (regAt 0x14) = 0x091F5003 := by decide

/-- H2: SRC_LEN written 0xFF000004 reads 4; H7: 0 written to CTRL has no effect. -/
theorem test_host_writes :
    (nextOf (State.reset.move (.regWrite 0x08 32 0xFF000004))).map (·.readReg (regAt 0x08)) = some 4 ∧
    nextOf (State.reset.move (.regWrite 0x00 32 0)) = some State.reset := by decide

/-- H3: while BUSY a new SRC_LEN and START are ignored, and STATUS reads 1. -/
theorem test_host_writes_busy :
    let s := zeroRun .lit 4 2 0 0 0 7 0x7F
    nextOf (s.move (.regWrite 0x08 32 9)) = some s ∧ nextOf (s.move (.regWrite 0x00 32 1)) = some s ∧
    s.readReg (regAt 0x04) = 1 := by decide

/-- R44: a 16-bit access and one at an odd offset are refused. -/
theorem test_host_undefined :
    State.reset.move (.regRead 0x04 16) = .refused (.undefinedAccess 0x04 16) ∧
    State.reset.move (.regWrite 0x01 32 1) = .refused (.undefinedAccess 0x01 32) := ⟨rfl, rfl⟩

/-- The table words run as the first instruction after reset: the control byte 0x7F, the literal 0x41, the token
`34 A7`'s first byte. -/
theorem test_withFetchWord :
    (nextOf (step (State.reset.withFetchWord 8 0x7F))).map (fun t => (t.ctrlByte, t.ctrlCnt)) = some (0x7F, 8) ∧
    (nextOf (step (State.reset.withFetchWord 24 0x10041))).map (fun t => (t.litData, t.phase)) = some (0x41, .litOut) ∧
    (nextOf (step (State.reset.withFetchWord 24 0x0A734))).map (fun t => (t.tokLo, t.phase)) = some (0x34, .br1) := by
  decide

/-! ## Witnesses: states that meet a statement's hypotheses -/

/-- A run of zeros meets the invariant where its numbers do. -/
theorem zeroRun_inv {phase : Phase} {srcLen p n rem : Nat} {src : Int} {cnt : Nat} {byte : Byte}
    (hl : p ≤ srcLen ∧ srcLen < 2 ^ 24)
    (hb : (zeroRun phase srcLen p n rem src cnt byte).needsByte = true → p < srcLen)
    (hc : cnt ≤ 8 ∧ byte.toNat < 2 ^ cnt ∧ (phase = .unit → 0 < cnt) ∧ (phase = .refill → cnt = 0))
    (hw : n + rem < 2 ^ 32 ∧ rem ≤ 18 ∧ (phase = .copy ↔ rem ≠ 0))
    (hs : -4096 ≤ src ∧ src ≤ n + 17 ∧ (phase = .copy → (n : Int) ≤ src + 4096))
    (ho : n + (zeroRun phase srcLen p n rem src cnt byte).owed ≤ 9 * p) :
    (zeroRun phase srcLen p n rem src cnt byte).Inv := by
  obtain ⟨hl1, hl2⟩ := hl
  obtain ⟨hc1, hc2, hc3, hc4⟩ := hc
  obtain ⟨hw1, hw2, hw3⟩ := hw
  obtain ⟨hs1, hs2, hs3⟩ := hs
  have e1 : (BitVec.ofNat 24 srcLen).toNat = srcLen := by simp; omega
  have e2 : (BitVec.ofNat 24 p).toNat = p := by simp; omega
  have e3 : (BitVec.ofNat 32 n).toNat = n := by simp; omega
  have e4 : (BitVec.ofNat 12 (n + rem)).toNat = (n + rem) % 4096 := by simp
  have e9 : (BitVec.ofNat 32 ((n + rem) / 4096 * 4096)).toNat = (n + rem) / 4096 * 4096 := by simp; omega
  have e5 : (BitVec.ofNat 5 rem).toNat = rem := by simp; omega
  have e6 : (BitVec.ofNat 4 cnt).toNat = cnt := by simp; omega
  have e7 : (BitVec.ofInt 33 src).toInt = src := by
    rw [BitVec.toInt_ofInt]; apply Int.bmod_eq_of_le <;> omega
  have e8 : BitVec.ofNat 5 rem ≠ 0 ↔ rem ≠ 0 := by
    rw [not_iff_not, ← BitVec.toNat_inj, e5]; rfl
  refine ⟨⟨?_, ?_, ?_⟩, ⟨fun _ => ?_, fun h => ?_, ?_, ?_, ?_, ?_, ?_⟩, ⟨?_, ?_, ?_, ?_, ?_, ?_, ?_⟩, ⟨?_, ?_, rfl, ?_, ?_⟩⟩
  · cases phase <;> simp [zeroRun, State.Running, Status.reset, Status.started]
  · cases phase <;> simp [zeroRun, Status.reset, Status.started]
  · cases phase <;> simp [zeroRun, Status.reset, Status.started]
  · simpa only [zeroRun, e1, e2] using hl1
  · simpa only [zeroRun, e1, e2] using hb h
  · simp only [zeroRun, e2, List.length_replicate]
  · simpa only [zeroRun, e6] using hc1
  · simpa only [zeroRun, e6] using hc2
  · simpa only [zeroRun, e6] using hc3
  · intro h; rw [hc4 h]; rfl
  · simp only [zeroRun, e3, e4, e5, e9]; omega
  · simp only [zeroRun, e9, Config.window]; omega
  · simpa only [zeroRun, e5, Config.maxMatch] using hw2
  · simpa only [zeroRun, e8] using hw3
  · simp only [zeroRun, e7, Config.window]; omega
  · simp only [zeroRun, e7, e3]; omega
  · simpa only [zeroRun, e7, e3, Config.window, Nat.cast_ofNat] using hs3
  · simp only [zeroRun, e3, List.length_replicate]
  · simpa only [zeroRun, e3, e2] using ho
  · intro _ r h _
    simp only [zeroRun, e3] at h
    simp [zeroRun, h, State.reset, Config.zeroFill]
  · intros; rfl

/-- A state with other port signals and moves. -/
def at' (s : State) (offered : List Byte) (moves : List HostMove) (ready : Bool) : State :=
  { s with offered := offered, moves := moves, outReady := ready }

/-- What the host drives is not in the invariant. -/
theorem at'_inv {s : State} (h : s.Inv) (offered : List Byte) (moves : List HostMove) (ready : Bool) :
    (at' s offered moves ready).Inv :=
  ⟨⟨h.1.1, h.1.2, h.1.3⟩, ⟨h.2.1, h.2.2, h.2.3, h.2.4, h.2.5, h.2.6, h.2.7⟩,
    ⟨h.3.1, h.3.2, h.3.3, h.3.4, h.3.5, h.3.6, h.3.7⟩, ⟨h.4.1, h.4.2, h.4.3, h.4.4, h.4.5⟩⟩

/-! One state of the invariant for each phase, and some at a boundary. -/

theorem idle_inv : (zeroRun .idle 0 0 0 0 0 0 0).Inv := by apply zeroRun_inv <;> decide
theorem done_inv : (zeroRun .done 4 4 3 0 0 5 0x1F).Inv := by apply zeroRun_inv <;> decide
theorem topEnd_inv : (zeroRun .top 4 4 3 0 0 5 0x1F).Inv := by apply zeroRun_inv <;> decide
theorem topRefill_inv : (zeroRun .top 5 4 3 0 0 0 0).Inv := by apply zeroRun_inv <;> decide
theorem topUnit_inv : (zeroRun .top 5 3 3 0 0 2 2).Inv := by apply zeroRun_inv <;> decide
theorem refill_inv : (zeroRun .refill 2 0 0 0 0 0 0).Inv := by apply zeroRun_inv <;> decide
theorem refillLast_inv : (zeroRun .refill 1 0 0 0 0 0 0).Inv := by apply zeroRun_inv <;> decide
theorem unitFirst_inv : (zeroRun .unit 2 1 0 0 0 8 0xFF).Inv := by apply zeroRun_inv <;> decide
theorem unitLast_inv : (zeroRun .unit 9 8 7 0 0 1 0).Inv := by apply zeroRun_inv <;> decide
theorem lit_inv : (zeroRun .lit 4 2 0 0 0 7 0x7F).Inv := by apply zeroRun_inv <;> decide
theorem litOut_inv : (zeroRun .litOut 600 456 4095 0 0 7 0x7F).Inv := by apply zeroRun_inv <;> decide
theorem br0_inv : (zeroRun .br0 3 1 0 0 0 7 0).Inv := by apply zeroRun_inv <;> decide
theorem br0Last_inv : (zeroRun .br0 2 1 0 0 0 7 0).Inv := by apply zeroRun_inv <;> decide
theorem br1_inv : (zeroRun .br1 3 2 1 0 0 7 0).Inv := by apply zeroRun_inv <;> decide
/-- A token at WIN_CTR 4078 with offset 4095 and length 18 is the forward reference farthest ahead. -/
theorem br1Wrap_inv : ({ zeroRun .br1 600 456 4078 0 0 7 0 with tokLo := 0xFF } : State).Inv := by
  have h : (zeroRun .br1 600 456 4078 0 0 7 0).Inv := by apply zeroRun_inv <;> decide
  exact ⟨⟨h.1.1, h.1.2, h.1.3⟩, ⟨h.2.1, h.2.2, h.2.3, h.2.4, h.2.5, h.2.6, h.2.7⟩,
    ⟨h.3.1, h.3.2, h.3.3, h.3.4, h.3.5, h.3.6, h.3.7⟩, ⟨h.4.1, h.4.2, h.4.3, h.4.4, h.4.5⟩⟩
/-- The first token position of the second window lap. -/
theorem br1Lap_inv : (zeroRun .br1 600 457 4096 0 0 7 0).Inv := by apply zeroRun_inv <;> decide
theorem copyBelow_inv : (zeroRun .copy 3 3 0 18 (-4096) 7 0).Inv := by apply zeroRun_inv <;> decide
theorem copyLast_inv : (zeroRun .copy 5 4 3 1 2 5 0).Inv := by apply zeroRun_inv <;> decide

/-! ### Reset, start and the invariant -/

theorem witness_StartSetsRunValues :
    (0xFFFFFFFE : Word)[0] = false ∧ (zeroRun .lit 4 2 0 0 0 7 0x7F).status.busy = true ∧
    (1 : Word)[0] = true ∧ (zeroRun .done 4 4 3 0 0 5 0x1F).status.busy = false := by decide

theorem witness_StartForgetsEarlierRuns :
    let s₁ : State := { State.reset with srcLen := 4, outReady := true }
    let s₂ := zeroRun .done 4 4 3 0 0 5 0x1F
    s₁ ≠ s₂ ∧ s₁.srcLen = s₂.srcLen ∧ s₁.offered = s₂.offered ∧ s₁.outReady = s₂.outReady ∧
    s₁.moves = s₂.moves ∧ s₁.got = s₂.got ∧ s₁.resets = s₂.resets := by decide

theorem witness_EveryStepKeepsInvariant :
    (∃ s t : State, s.Inv ∧ step s = .next t ∧ t ≠ s) ∧
    (∃ s t : State, s.Inv ∧ s.moves = [.regWrite 0x00 32 1] ∧ step s = .next t ∧ t.phase = .top) :=
  ⟨⟨_, _, litOut_inv, rfl, by decide⟩, ⟨_, _, at'_inv done_inv [] [.regWrite 0x00 32 1] true, rfl, rfl, rfl⟩⟩

theorem witness_WindowSumAtEveryStep :
    (∃ s t : State, s.Inv ∧ step s = .next t ∧ t.phase ≠ .copy ∧ s.winCtr = 4095 ∧ t.winCtr = 0) ∧
    (∃ s t : State, s.Inv ∧ step s = .next t ∧ t.phase = .copy ∧ t.copyRem = 17) ∧
    (∃ s t : State, s.Inv ∧ step s = .next t ∧ s.phase = .br1 ∧ t.phase = .copy ∧ t.winOrigin = 4096) :=
  ⟨⟨_, _, litOut_inv, rfl, by decide, rfl, rfl⟩, ⟨_, _, copyBelow_inv, rfl, rfl, rfl⟩,
    ⟨_, _, at'_inv br1Wrap_inv [0xFF] [] true, rfl, rfl, rfl, rfl⟩⟩

/-! ### The register window -/

theorem witness_SrcLenWriteOutsideRun :
    (zeroRun .lit 4 2 0 0 0 7 0x7F).status.busy = true ∧ State.reset.status.busy = false := by decide

theorem witness_OtherWritesIgnored :
    (0x04 : BitVec 8).toNat % 4 = 0 ∧ (0x04 : BitVec 8) ≠ 0x00 ∧ (0x04 : BitVec 8) ≠ 0x08 ∧
    (0xFC : BitVec 8).toNat % 4 = 0 ∧ (0xFC : BitVec 8) ≠ 0x00 ∧ (0xFC : BitVec 8) ≠ 0x08 := by decide

theorem witness_WritesDuringRunIgnored :
    (∃ s : State, s.Inv ∧ s.Running) ∧ (0x00 : BitVec 8).toNat % 4 = 0 ∧ (0xFC : BitVec 8).toNat % 4 = 0 :=
  ⟨⟨_, lit_inv, by decide⟩, by decide, by decide⟩

theorem witness_RegisterReadsReturn :
    ∀ offset ∈ [(0x00 : BitVec 8), 0x04, 0x08, 0x0C, 0x10, 0x14, 0x18, 0x1C, 0xFC],
      offset.toNat % 4 = 0 ∧ (offset.toNat ≤ 0x18 ∨ 0x1C ≤ offset.toNat) := by decide

theorem witness_UndefinedAccessRefused :
    (32 = 32 ∧ (0xFC : BitVec 8).toNat % 4 = 0) ∧ ¬(16 = 32 ∧ (0x04 : BitVec 8).toNat % 4 = 0) ∧
    ¬(32 = 32 ∧ (0x01 : BitVec 8).toNat % 4 = 0) := by decide

/-! ### The steps of a run -/

theorem witness_StepRunsDecodedUnit :
    (∃ (s : State) (i : Instr) (rest : List Byte), s.moves = [] ∧ s.phase = .refill ∧
      decodeAt .control s.offered = .ok (i, rest)) ∧
    (∃ (s : State) (i : Instr) (rest : List Byte), s.moves = [] ∧ s.phase = .lit ∧
      decodeAt (.unit true) s.offered = .ok (i, rest)) ∧
    (∃ (s : State) (i : Instr) (rest : List Byte), s.moves = [.decoder] ∧ s.phase = .br0 ∧
      decodeAt (.unit false) s.offered = .ok (i, rest)) ∧
    (∃ (s : State) (b0 : Byte) (offset : WinPos), s.moves = [] ∧ s.phase = .br0 ∧ s.offered = [b0] ∧
      tokenFirst offset = b0) ∧
    (∃ (s : State) (i : Instr) (rest : List Byte), s.moves = [] ∧ s.phase = .br1 ∧
      decodeAt (.unit false) (s.tokLo :: s.offered) = .ok (i, rest)) ∧
    (∃ s : State, s.moves = [] ∧ s.phase = .litOut) ∧ (∃ s : State, s.moves = [] ∧ s.phase = .copy) ∧
    (∃ (s : State) (m : HostMove) (ms : List HostMove), s.moves = m :: ms) :=
  ⟨⟨at' (zeroRun .refill 2 0 0 0 0 0 0) [0x7F] [] true, _, _, rfl, rfl, rfl⟩,
    ⟨at' (zeroRun .lit 4 2 0 0 0 7 0x7F) [0x41] [] true, _, _, rfl, rfl, rfl⟩,
    ⟨at' (zeroRun .br0 3 1 0 0 0 7 0) [0x34, 0xA7] [.decoder] true, _, _, rfl, rfl, rfl⟩,
    ⟨at' (zeroRun .br0 2 1 0 0 0 7 0) [0x34] [] true, 0x34, 0xA34, rfl, rfl, rfl, rfl⟩,
    ⟨at' (zeroRun .br1 3 2 1 0 0 7 0) [0xA7] [] true, _, _, rfl, rfl, rfl⟩,
    ⟨zeroRun .litOut 2 2 0 0 0 7 0, rfl, rfl⟩, ⟨zeroRun .copy 5 4 3 1 2 5 0, rfl, rfl⟩,
    ⟨at' State.reset [] [.withdraw] true, _, _, rfl⟩⟩

theorem witness_LoopTestAtTop :
    (∃ s : State, s.Inv ∧ s.phase = .top ∧ s.srcPos = s.srcLen) ∧
    (∃ s : State, s.Inv ∧ s.phase = .top ∧ s.srcPos ≠ s.srcLen ∧ s.ctrlCnt = 0 ∧ s.moves = [.decoder]) ∧
    (∃ s : State, s.Inv ∧ s.phase = .top ∧ s.srcPos ≠ s.srcLen ∧ s.ctrlCnt ≠ 0) :=
  ⟨⟨_, topEnd_inv, rfl, rfl⟩, ⟨_, at'_inv topRefill_inv [] [.decoder] true, rfl, by decide, rfl, rfl⟩,
    ⟨_, topUnit_inv, rfl, by decide, by decide⟩⟩

theorem witness_ControlBitExtraction :
    (∃ s : State, s.Inv ∧ s.phase = .unit ∧ s.ctrlCnt = 8 ∧ s.ctrlByte.toNat % 2 = 1) ∧
    (∃ s : State, s.Inv ∧ s.phase = .unit ∧ s.ctrlCnt = 1 ∧ s.ctrlByte.toNat % 2 = 0 ∧ s.moves = [.decoder]) :=
  ⟨⟨_, unitFirst_inv, rfl, rfl, rfl⟩, ⟨_, at'_inv unitLast_inv [] [.decoder] true, rfl, rfl, rfl, rfl⟩⟩

theorem witness_PackedControlWordAgrees :
    (zeroRun .unit 9 1 0 0 0 8 0xA5).ctrlByte = 0xA5 ∧ (zeroRun .unit 9 1 0 0 0 8 0xA5).ctrlCnt = 8 ∧ 8 ≤ 8 ∧ 7 < 8 := by
  decide

theorem witness_ControlByteCompletes :
    (∃ s : State, s.phase = .refill ∧ s.offered = [0x41] ∧ s.srcPos.toNat + 1 = s.srcLen.toNat) ∧
    (∃ s : State, s.phase = .refill ∧ s.offered = [0x41] ∧ s.srcPos.toNat + 1 ≠ s.srcLen.toNat) :=
  ⟨⟨at' (zeroRun .refill 1 0 0 0 0 0 0) [0x41] [] true, rfl, rfl, rfl⟩,
    ⟨at' (zeroRun .refill 2 0 0 0 0 0 0) [0x41] [] true, rfl, rfl, by decide⟩⟩

theorem witness_LiteralInputCompletes : ∃ s : State, s.phase = .lit ∧ s.offered = [0x41, 0x42] :=
  ⟨at' (zeroRun .lit 4 2 0 0 0 7 0x7F) [0x41, 0x42] [] true, rfl, rfl⟩

theorem witness_LiteralOutputCompletes :
    (∃ s : State, s.Inv ∧ s.phase = .litOut ∧ s.outReady = true ∧ s.winCtr = 4095) ∧
    (∃ s : State, s.phase = .litOut ∧ s.outReady = false) :=
  ⟨⟨_, litOut_inv, rfl, rfl, rfl⟩, ⟨at' (zeroRun .litOut 2 2 0 0 0 7 0) [] [] false, rfl, rfl⟩⟩

theorem witness_TokenFirstByteCompletes :
    (∃ s : State, s.Inv ∧ s.phase = .br0 ∧ s.offered = [0x34] ∧ tokenFirst 0xA34 = 0x34 ∧
      (s.srcLen.toNat : Int) - s.srcPos.toNat = 1) ∧
    (∃ s : State, s.Inv ∧ s.phase = .br0 ∧ s.offered = [0x34] ∧ (s.srcLen.toNat : Int) - s.srcPos.toNat = 2) :=
  ⟨⟨_, at'_inv br0Last_inv [0x34] [] true, rfl, rfl, by decide, by decide⟩,
    ⟨_, at'_inv br0_inv [0x34] [] true, rfl, rfl, by decide⟩⟩

theorem witness_TokenSecondByteCompletes :
    (∃ s : State, s.phase = .br1 ∧ s.offered = [0xA0] ∧ tokenFirst 0xA00 = s.tokLo ∧ tokenSecond 0xA00 3 = 0xA0) ∧
    (∃ s : State, s.phase = .br1 ∧ s.offered = [0xAF] ∧ tokenFirst 0xA00 = s.tokLo ∧ tokenSecond 0xA00 18 = 0xAF) :=
  ⟨⟨at' (zeroRun .br1 3 2 1 0 0 7 0) [0xA0] [] true, rfl, rfl, by decide, by decide⟩,
    ⟨at' (zeroRun .br1 3 2 1 0 0 7 0) [0xAF] [] true, rfl, rfl, by decide, by decide⟩⟩

theorem witness_CopyStepCompletes :
    (∃ s : State, s.phase = .copy ∧ s.outReady = true ∧ s.copySrc.toInt = -4096 ∧ s.copyRem = 18) ∧
    (∃ s : State, s.phase = .copy ∧ s.outReady = true ∧ 0 ≤ s.copySrc.toInt ∧ s.copyRem = 1) ∧
    (∃ s : State, s.phase = .copy ∧ s.outReady = false) :=
  ⟨⟨zeroRun .copy 3 3 0 18 (-4096) 7 0, rfl, rfl, by decide, rfl⟩,
    ⟨zeroRun .copy 5 4 3 1 2 5 0, rfl, rfl, by decide, rfl⟩,
    ⟨at' (zeroRun .copy 5 4 3 1 2 5 0) [] [] false, rfl, rfl⟩⟩

/-- Exactly 4096, by one byte and by 18, and one below it. -/
theorem witness_WindowAdvanceRule :
    (1 ≤ 1 ∧ 1 ≤ 18 ∧ 4096 ≤ (4095 : WinPos).toNat + 1) ∧ (1 ≤ 18 ∧ 18 ≤ 18 ∧ 4096 ≤ (4078 : WinPos).toNat + 18) ∧
    (4077 : WinPos).toNat + 18 < 4096 := by decide

theorem witness_ResolveRule :
    (∃ s : State, s.Inv ∧ s.phase = .br1 ∧ 3 ≤ 3 ∧ 3 ≤ 18) ∧
    (∃ s : State, s.Inv ∧ s.phase = .br1 ∧ resolve 4095 (winAdvance s.winCtr s.winOrigin 18).2 s.dstLen =
      s.dstLen.toNat + 17) :=
  ⟨⟨_, br1_inv, rfl, by decide, by decide⟩, ⟨_, br1Wrap_inv, rfl, by decide⟩⟩

/-! ### Frames -/

theorem witness_ControlByteFrame :
    (∃ s t : State, exec (.ctrl 0x41) s = .next t ∧ t.phase = .done) ∧
    (∃ s t : State, exec (.ctrl 0x41) s = .next t ∧ t.phase ≠ .done ∧ t.input = s.input ++ [0x41]) :=
  ⟨⟨at' (zeroRun .refill 1 0 0 0 0 0 0) [0x41] [] true, _, rfl, rfl⟩,
    ⟨at' (zeroRun .refill 2 0 0 0 0 0 0) [0x41] [] true, _, rfl, by decide, rfl⟩⟩

theorem witness_LiteralFrame :
    (∃ s t : State, exec (.lit 0x41) s = .next t ∧ s.phase = .lit ∧ t ≠ s) ∧
    (∃ s t : State, exec (.lit 0x41) s = .next t ∧ s.phase = .litOut ∧ t ≠ s ∧ slotOf 5 ≠ slotOf s.dstLen.toNat) :=
  ⟨⟨at' (zeroRun .lit 4 2 0 0 0 7 0x7F) [0x41] [] true, _, rfl, rfl, by decide⟩,
    ⟨zeroRun .litOut 2 2 0 0 0 7 0, _, rfl, rfl, by decide, by decide⟩⟩

theorem witness_TokenFrame :
    (∃ s t : State, exec (.bref 0xA34 10) s = .next t ∧ s.phase = .br0 ∧ t.phase = .done) ∧
    (∃ s t : State, exec (.bref 0xA34 10) s = .next t ∧ s.phase = .br0 ∧ t.phase ≠ .done) ∧
    (∃ s t : State, exec (.bref 0xA34 10) s = .next t ∧ s.phase = .br1 ∧ t ≠ s) ∧
    (∃ s t : State, exec (.bref 0xA34 10) s = .next t ∧ s.phase = .copy ∧ t ≠ s ∧ slotOf 5 ≠ slotOf s.dstLen.toNat) :=
  ⟨⟨at' (zeroRun .br0 2 1 0 0 0 7 0) [0x34] [] true, _, rfl, rfl, rfl⟩,
    ⟨at' (zeroRun .br0 3 1 0 0 0 7 0) [0x34] [] true, _, rfl, rfl, by decide⟩,
    ⟨at' (zeroRun .br1 3 2 1 0 0 7 0) [0xA7] [] true, _, rfl, rfl, by decide⟩,
    ⟨zeroRun .copy 5 4 3 1 2 5 0, _, rfl, rfl, by decide, by decide⟩⟩

/-! ### Encoding -/

theorem witness_DecodeOfEncode :
    (Instr.ctrl 0xFF).wellFormed = true ∧ (Instr.lit 0xFF).wellFormed = true ∧
    (Instr.bref 0 3).wellFormed = true ∧ (Instr.bref 4095 18).wellFormed = true := by decide

theorem witness_EncodeOfDecode :
    decodeAt .control [0xFF] = .ok (.ctrl 0xFF, []) ∧ decodeAt (.unit true) [0xFF] = .ok (.lit 0xFF, []) ∧
    decodeAt (.unit false) [0xFF, 0xFF, 0x01] = .ok (.bref 4095 18, [0x01]) := ⟨rfl, rfl, rfl⟩

theorem witness_ControlBitDecidesLength :
    decodeAt (.unit true) [0x41] = .ok (.lit 0x41, []) ∧ decodeAt (.unit false) [0x00, 0x00] = .ok (.bref 0 3, []) ∧
    decodeAt .control [0x00] = .ok (.ctrl 0, []) ∧ decodeAt (.unit false) [0x00] = .error .tokenCutOff :=
  ⟨rfl, rfl, rfl, rfl⟩

theorem witness_DecodeWordRows :
    (0x10041 : BitVec 17) &&& 0x10000 = 0x10000 ∧ (0x0FFFF : BitVec 17) &&& 0x10000 = 0 ∧
    (Instr.lit 0x41).wellFormed = true ∧ encodeWord (.lit 0x41) = some 0x10041 ∧
    (Instr.bref 4095 18).wellFormed = true ∧ encodeWord (.bref 4095 18) = some 0x0FFFF := by decide

theorem witness_AssembledUnitsParseBack :
    ∀ u ∈ [Instr.lit 0x41, .bref 0 3, .bref 4095 18], u.wellFormed = true ∧ u.position ≠ .control := by decide

theorem witness_BrefdReadsAtDistance :
    ∃ s : State, s.Inv ∧ s.phase = .br1 ∧ brefd s.dstLen.toNat 1 3 = .bref 0 3 ∧
      brefd s.dstLen.toNat 4096 18 = .bref 1 18 :=
  ⟨_, br1_inv, rfl, by decide, by decide⟩

/-! ### The machine as a whole -/

theorem witness_PhaseChangesByTable :
    (∃ s t : State, s.Inv ∧ step s = .next t ∧ s.phase = .copy ∧ t.phase ≠ s.phase ∧ s.moves.head? ≠ some .reset) ∧
    (∃ s t : State, s.Inv ∧ step s = .next t ∧ s.phase = .done ∧ t.phase ≠ s.phase ∧ s.moves.head? ≠ some .reset) :=
  ⟨⟨_, _, copyLast_inv, rfl, rfl, by decide, by decide⟩,
    ⟨_, _, at'_inv done_inv [] [.regWrite 0x00 32 1] true, rfl, rfl, by decide, by decide⟩⟩

theorem witness_AtMostOneTransfer :
    (∃ s t : State, s.decoderStep = .next t ∧ t.input ≠ s.input) ∧
    (∃ s t : State, s.decoderStep = .next t ∧ t.output ≠ s.output) ∧
    (∃ s t : State, s.decoderStep = .next t ∧ s.inReady = true ∧ s.offered = []) ∧
    (∃ s t : State, s.decoderStep = .next t ∧ s.outValid = true ∧ s.outReady = false) :=
  ⟨⟨at' (zeroRun .lit 4 2 0 0 0 7 0x7F) [0x41] [] true, _, rfl, by decide⟩,
    ⟨zeroRun .copy 5 4 3 1 2 5 0, _, rfl, by decide⟩, ⟨zeroRun .lit 4 2 0 0 0 7 0x7F, _, rfl, rfl, rfl⟩,
    ⟨at' (zeroRun .copy 5 4 3 1 2 5 0) [] [] false, _, rfl, rfl, rfl⟩⟩

theorem witness_WaitsKeepState :
    (∃ s : State, s.Inv ∧ s.phase = .idle ∧ s.moves = [.decoder, .ready true]) ∧
    (∃ s : State, s.Inv ∧ s.phase = .done ∧ s.moves = []) ∧
    (∃ s t : State, s.Inv ∧ s.inReady = true ∧ s.offered = [] ∧ s.moves = [] ∧ s.move (.ready false) = .next t ∧
      ∀ b, HostMove.ready false ≠ .offer b) ∧
    (∃ s t : State, s.Inv ∧ s.outValid = true ∧ s.outReady = false ∧ s.moves = [] ∧ s.move (.offer 0) = .next t) ∧
    (∃ s t : State, s.Inv ∧ s.phase = .done ∧ s.move (.regWrite 0x00 32 2) = .next t ∧
      ∀ x : Word, x[0] = true → HostMove.regWrite 0x00 32 2 ≠ .regWrite 0x00 32 x) :=
  ⟨⟨_, at'_inv idle_inv [] [.decoder, .ready true] true, rfl, rfl⟩, ⟨_, done_inv, rfl, rfl⟩,
    ⟨_, _, lit_inv, rfl, rfl, rfl, rfl, fun b => by simp⟩,
    ⟨_, _, at'_inv copyLast_inv [] [] false, rfl, rfl, rfl, rfl⟩,
    ⟨_, _, done_inv, rfl, rfl, by
      intro x hx e
      cases e
      exact absurd hx (by decide)⟩⟩

theorem witness_InputOnlyWithinStream :
    (∃ s t : State, s.Inv ∧ s.decoderStep = .next t ∧ s.Running ∧ t.input ≠ s.input) ∧
    (∃ s t : State, s.Inv ∧ s.decoderStep = .next t ∧ s.offered = [0x41] ∧ ¬s.Running) ∧
    (∃ s t : State, s.Inv ∧ s.decoderStep = .next t ∧ s.offered = [0x41] ∧ s.srcPos = s.srcLen ∧ s.Running) :=
  ⟨⟨_, _, at'_inv refillLast_inv [0x41] [] true, rfl, by decide, by decide⟩,
    ⟨_, _, at'_inv done_inv [0x41] [] true, rfl, rfl, by decide⟩,
    ⟨_, _, at'_inv topEnd_inv [0x41] [] true, rfl, rfl, rfl, by decide⟩⟩

theorem witness_InputPortTransfers :
    (∃ s : State, s.inReady = true ∧ s.inValid = true) ∧ (∃ s : State, s.inReady = true ∧ s.inValid = false) ∧
    (∃ s t : State, s.inReady = false ∧ s.decoderStep = .next t ∧ s.offered = [0x41]) :=
  ⟨⟨at' (zeroRun .lit 4 2 0 0 0 7 0x7F) [0x41] [] true, rfl, rfl⟩, ⟨zeroRun .lit 4 2 0 0 0 7 0x7F, rfl, rfl⟩,
    ⟨at' (zeroRun .top 5 4 3 0 0 0 0) [0x41] [] true, _, rfl, rfl, rfl⟩⟩

theorem witness_OutputOfferIsKept :
    (∃ s t : State, s.Inv ∧ step s = .next t ∧ s.moves.head? ≠ some .reset ∧ s.phase = .litOut ∧ s.outValid = true ∧
      s.outReady = true ∧ s.moves = []) ∧
    (∃ s t : State, s.Inv ∧ step s = .next t ∧ s.moves.head? = some (.ready false) ∧ s.phase = .copy ∧
      s.outValid = true ∧ s.outReady = true) ∧
    (∃ s t : State, s.Inv ∧ step s = .next t ∧ s.moves.head? ≠ some .reset ∧ s.phase = .copy ∧ s.outReady = false) :=
  ⟨⟨_, _, litOut_inv, rfl, by decide, rfl, rfl, rfl, rfl⟩,
    ⟨_, _, at'_inv copyLast_inv [] [.ready false] true, rfl, rfl, rfl, rfl, rfl⟩,
    ⟨_, _, at'_inv copyLast_inv [] [] false, rfl, by decide, rfl, rfl⟩⟩

theorem witness_DoneKeepsResults :
    ∃ s t : State, s.Inv ∧ s.phase = .done ∧ step s = .next t ∧ s.moves.head? ≠ some .reset ∧
      ∀ x : Word, x[0] = true → s.moves.head? ≠ some (.regWrite 0x00 32 x) :=
  ⟨_, _, at'_inv done_inv [0x41] [.regWrite 0x08 32 9] true, rfl, rfl, by decide, fun x _ => by simp [at']⟩

theorem witness_RunStopsAtStreamEnd :
    (∃ s t : State, s.Inv ∧ step s = .next t ∧ s.phase = .top ∧ t.phase = .done) ∧
    (∃ s t : State, s.Inv ∧ step s = .next t ∧ s.phase = .refill ∧ t.phase = .done) ∧
    (∃ s t : State, s.Inv ∧ step s = .next t ∧ s.phase = .br0 ∧ t.phase = .done) :=
  ⟨⟨_, _, topEnd_inv, rfl, rfl, rfl⟩, ⟨_, _, at'_inv refillLast_inv [0x41] [] true, rfl, rfl, rfl⟩,
    ⟨_, _, at'_inv br0Last_inv [0x41] [] true, rfl, rfl, rfl⟩⟩

theorem witness_OverrunIsPrecise :
    ∃ s : State, s.Inv ∧ s.moves = [] ∧ s.phase = .br0 ∧ s.offered = [0x05, 0x06] ∧
      s.srcLen.toNat - s.srcPos.toNat = 1 :=
  ⟨_, at'_inv br0Last_inv [0x05, 0x06] [] true, rfl, rfl, rfl, by decide⟩

theorem witness_StatusDecidesNoStep :
    ∃ (s t : State) (st : Status), s.decoderStep = .next t ∧ st ≠ s.status ∧ t.status ≠ s.status :=
  ⟨zeroRun .top 4 4 3 0 0 5 0x1F, _, Status.reset, rfl, by decide, by decide⟩

theorem witness_FlagsAreSticky :
    (∃ s t : State, s.Inv ∧ s.Running ∧ step s = .next t ∧ s.moves.head? ≠ some .reset ∧
      t.status.fwdref ≠ s.status.fwdref) ∧
    (∃ s t : State, s.Inv ∧ s.Running ∧ step s = .next t ∧ s.moves.head? ≠ some .reset ∧
      t.status.zfill ≠ s.status.zfill) :=
  ⟨⟨_, _, at'_inv br1Wrap_inv [0xFF] [] true, by decide, rfl, by decide, by decide⟩,
    ⟨_, _, copyBelow_inv, by decide, rfl, by decide, by decide⟩⟩

theorem witness_NoStepFaults : ∃ s r, step s = .refused r :=
  ⟨at' State.reset [] [.regRead 0x02 32] true, _, rfl⟩

theorem witness_TransferWithinTwoSteps : ∃ s : State, s.Inv ∧ s.Running ∧ s.moves = [] :=
  ⟨_, topUnit_inv, by decide, rfl⟩

theorem witness_CanonicalDictionariesEqual :
    ∃ d₁ d₂ : Dict, d₁.wf = true ∧ d₂.wf = true ∧ (∀ k, d₁.read k = d₂.read k) ∧ d₁ ≠ [] :=
  ⟨[(0, 0x41), (4095, 0x42)], [(0, 0x41), (4095, 0x42)], by decide, by decide, fun _ => rfl, by decide⟩

/-! ### Whole units and runs -/

theorem witness_LiteralUnitTakesFourSteps :
    ∃ s : State, s.moves = [] ∧ s.outReady = true ∧ s.phase = .top ∧ s.srcPos ≠ s.srcLen ∧ s.ctrlCnt ≠ 0 ∧
      s.ctrlByte[0] = true ∧ s.offered = [0x41] :=
  ⟨at' (zeroRun .top 5 3 3 0 0 1 1) [0x41] [] true, rfl, rfl, rfl, by decide, by decide, by decide, rfl⟩

theorem witness_TokenUnitTakesLengthSteps :
    ∃ s : State, s.Inv ∧ s.moves = [] ∧ s.outReady = true ∧ s.phase = .top ∧ s.srcPos.toNat + 2 = s.srcLen.toNat ∧
      s.ctrlCnt ≠ 0 ∧ s.ctrlByte[0] = false ∧ s.offered = [0xFF, 0xFF] :=
  ⟨_, at'_inv topUnit_inv [0xFF, 0xFF] [] true, rfl, rfl, rfl, by decide, by decide, by decide, rfl⟩

theorem witness_BackwardCopyReadsOutput :
    (∃ s : State, s.Inv ∧ s.moves = [] ∧ s.outReady = true ∧ s.phase = .copy ∧ s.copySrc.toInt = -4096 ∧
      s.copySrc.toInt < s.dstLen.toNat) ∧
    (∃ s : State, s.Inv ∧ s.moves = [] ∧ s.outReady = true ∧ s.phase = .copy ∧
      s.copySrc.toInt + 1 = s.dstLen.toNat) :=
  ⟨⟨_, copyBelow_inv, rfl, rfl, rfl, by decide, by decide⟩, ⟨_, copyLast_inv, rfl, rfl, rfl, by decide⟩⟩

theorem copyOverlap_inv : (zeroRun .copy 3 3 1 18 0 7 0).Inv := by apply zeroRun_inv <;> decide

theorem witness_OverlappingCopyRepeats :
    ∃ (s : State) (d : Nat), s.Inv ∧ s.moves = [] ∧ s.outReady = true ∧ s.phase = .copy ∧ 1 ≤ d ∧
      0 ≤ s.copySrc.toInt ∧ s.copySrc.toInt + d = s.dstLen.toNat ∧ d < s.copyRem.toNat :=
  ⟨_, 1, copyOverlap_inv, rfl, rfl, rfl, by decide, by decide, by decide, by decide⟩

theorem witness_ForwardReferenceReads :
    ∃ (s : State) (b1 : Byte), s.Inv ∧ s.moves = [] ∧ s.outReady = true ∧ s.phase = .br1 ∧ s.offered = [b1] ∧
      resolve (tokenOffset s.tokLo b1) (winAdvance s.winCtr s.winOrigin (tokenLength b1)).2 s.dstLen
        = (s.dstLen.toNat : Int) + 17 :=
  ⟨_, 0xFF, at'_inv br1Wrap_inv [0xFF] [] true, rfl, rfl, rfl, rfl, by decide⟩

theorem witness_ZeroFillOnlyInFirstLap :
    (∃ s : State, s.Inv ∧ s.phase = .br1 ∧ s.dstLen = 1 ∧
      resolve 1 (winAdvance s.winCtr s.winOrigin 3).2 s.dstLen = -4095) ∧
    (∃ s : State, s.Inv ∧ s.phase = .br1 ∧ resolve 4095 (winAdvance s.winCtr s.winOrigin 18).2 s.dstLen = 4095) ∧
    (∃ s : State, s.Inv ∧ s.phase = .br1 ∧ s.dstLen.toNat = 4096) :=
  ⟨⟨_, br1_inv, rfl, rfl, by decide⟩, ⟨_, br1Wrap_inv, rfl, by decide⟩, ⟨_, br1Lap_inv, rfl, by decide⟩⟩

/-- A run just started follows the textbook decoder; so does the end of V1's run. -/
theorem witness_RunFollowsTextbookDecoder :
    (∃ s t : State, s.Inv ∧ s.FollowsTextbook ∧ step s = .next t ∧ t ≠ s) ∧
    (∃ s : State, s.FollowsTextbook ∧ s.phase = .done ∧ s.input = [0xFF, 0x41, 0x42, 0x43]) :=
  ⟨⟨zeroRun .top 1 0 0 0 0 0 0, _, by apply zeroRun_inv <;> decide,
      ⟨fun _ _ _ => rfl, fun h => by cases h⟩, rfl, by decide⟩,
    ⟨{ zeroRun .done 4 4 3 0 0 5 0x1F with input := [0xFF, 0x41, 0x42, 0x43], output := [0x41, 0x42, 0x43] },
      ⟨fun h => absurd h (by decide), fun _ => by decide⟩, rfl, rfl⟩⟩

theorem witness_ServedRunDecodes :
    (∃ s : State, s.start.Served ∧ s.srcLen = 0) ∧ (∃ s : State, s.start.Served ∧ s.srcLen = 4 ∧ s.offered.length = 6) :=
  ⟨⟨{ State.reset with outReady := true }, ⟨rfl, by decide, rfl⟩, rfl⟩,
    ⟨{ State.reset with srcLen := 4, outReady := true, offered := [0xFF, 0x41, 0x42, 0x43, 0x00, 0x01] },
      ⟨rfl, by decide, rfl⟩, rfl, rfl⟩⟩

theorem witness_ReadyMoveEffect :
    ∃ (s : State) (ms : List HostMove), s.moves = .ready true :: ms ∧ s.outReady = false ∧ s.outValid = true :=
  ⟨at' (zeroRun .copy 5 4 3 1 2 5 0) [] [.ready true, .decoder] false, _, rfl, rfl, rfl⟩

end Sys2Proof.Tests
end

section
/-!
SUPPORT. The scope's statements about a step (spec/00_scope.md R9): what a step of the decoder does at the two ports, and
which unit it runs.
-/

namespace Sys2Proof.Machine

/-! ## The transfers of a step -/

/-- From `s` to `t` no byte passes either port: both streams, their counts and the dictionary stand still. -/
structure State.KeepsPorts (s t : State) : Prop where
  input : t.input = s.input
  offered : t.offered = s.offered
  srcPos : t.srcPos = s.srcPos
  output : t.output = s.output
  dstLen : t.dstLen = s.dstLen
  dict : t.dict = s.dict

/-- From `s` to `t` the byte `b` passes the input port, and none the output port (R40). -/
structure State.TakesInput (s t : State) (b : Byte) : Prop where
  ready : s.inReady = true
  offered : s.offered = b :: t.offered
  input : t.input = s.input ++ [b]
  srcPos : t.srcPos = s.srcPos + 1
  output : t.output = s.output
  dstLen : t.dstLen = s.dstLen
  dict : t.dict = s.dict

/-- From `s` to `t` the byte `v` passes the output port, and none the input port (R41). -/
structure State.EmitsOutput (s t : State) (v : Byte) : Prop where
  valid : s.outValid = true
  ready : s.outReady = true
  data : s.outData = some v
  output : t.output = s.output ++ [v]
  dstLen : t.dstLen = s.dstLen + 1
  dict : t.dict = s.dict.write s.dstLen.toNat v
  input : t.input = s.input
  offered : t.offered = s.offered
  srcPos : t.srcPos = s.srcPos

/-- A step whose rule begins with InTake makes that transfer alone where its rest touches no port. -/
theorem State.takesInput_after {s : State} {b : Byte} {rest : List Byte} (hr : s.inReady = true)
    (ho : s.offered = b :: rest) {k : State → State} (hk : ∀ t : State, t.KeepsPorts (k t)) :
    s.TakesInput (s.after (s.inTake b) k) b := by
  rw [State.inTake_of_cons ho, State.after_some]
  obtain ⟨hin, hoff, hpos, hout, hlen, hdict⟩ :=
    hk { s with offered := rest, input := s.input ++ [b], srcPos := s.srcPos + 1 }
  exact ⟨hr, by rw [ho, hoff], hin, hpos, hout, hlen, hdict⟩

/-- A step whose rule begins with Emit of `out_data` makes that transfer alone where its rest touches no port. -/
theorem State.emitsOutput_after {s : State} {v : Byte} (hv : s.outValid = true) (hr : s.outReady = true)
    (hd : s.outData = some v) {k : State → State} (hk : ∀ t : State, t.KeepsPorts (k t)) :
    s.EmitsOutput (s.after (s.emit v) k) v := by
  rw [State.emit_of_ready hr, State.after_some]
  obtain ⟨hin, hoff, hpos, hout, hlen, hdict⟩ := hk { s with
    output := s.output ++ [v], dict := s.dict.write s.dstLen.toNat v, dstLen := s.dstLen + 1 }
  exact ⟨hv, hr, hd, hout, hlen, hdict, hin, hoff, hpos⟩

/-! ### Each phase's step at the ports -/

theorem State.loopTest_keepsPorts (s : State) : s.KeepsPorts s.loopTest := by
  unfold State.loopTest
  split
  · exact ⟨rfl, rfl, rfl, rfl, rfl, rfl⟩
  · split <;> exact ⟨rfl, rfl, rfl, rfl, rfl, rfl⟩

theorem State.extractBit_keepsPorts (s : State) : s.KeepsPorts s.extractBit := ⟨rfl, rfl, rfl, rfl, rfl, rfl⟩

theorem State.refill_takesInput {s : State} {b : Byte} {rest : List Byte} (hp : s.phase = .refill)
    (ho : s.offered = b :: rest) : s.TakesInput (s.refill b) b :=
  State.takesInput_after (by simp [State.inReady, hp]) ho fun t => by
    split <;> exact ⟨rfl, rfl, rfl, rfl, rfl, rfl⟩

theorem State.literalIn_takesInput {s : State} {d : Byte} {rest : List Byte} (hp : s.phase = .lit)
    (ho : s.offered = d :: rest) : s.TakesInput (s.literalIn d) d :=
  State.takesInput_after (by simp [State.inReady, hp]) ho fun _ => ⟨rfl, rfl, rfl, rfl, rfl, rfl⟩

/-- At an overrun too the byte is taken, and nothing else passes a port (R79). -/
theorem State.tokenStart_takesInput {s : State} {b0 : Byte} {rest : List Byte} (hp : s.phase = .br0)
    (ho : s.offered = b0 :: rest) : s.TakesInput (s.tokenStart b0) b0 :=
  State.takesInput_after (by simp [State.inReady, hp]) ho fun t => by
    split <;> exact ⟨rfl, rfl, rfl, rfl, rfl, rfl⟩

theorem State.tokenResolve_takesInput {s : State} {b1 : Byte} {rest : List Byte} (hp : s.phase = .br1)
    (ho : s.offered = b1 :: rest) : s.TakesInput (s.tokenResolve b1) b1 :=
  State.takesInput_after (by simp [State.inReady, hp]) ho fun _ => ⟨rfl, rfl, rfl, rfl, rfl, rfl⟩

theorem State.literalOut_emitsOutput {s : State} (hp : s.phase = .litOut) (hr : s.outReady = true) :
    s.EmitsOutput s.literalOut s.litData :=
  State.emitsOutput_after (by simp [State.outValid, hp]) hr (by simp [State.outData, hp]) fun _ =>
    ⟨rfl, rfl, rfl, rfl, rfl, rfl⟩

theorem State.copyStep_emitsOutput {s : State} (hp : s.phase = .copy) (hr : s.outReady = true) :
    s.EmitsOutput s.copyStep s.copyByte :=
  State.emitsOutput_after (by simp [State.outValid, hp]) hr (by simp [State.outData, hp]) fun _ =>
    ⟨rfl, rfl, rfl, rfl, rfl, rfl⟩

/-! ### A step of the decoder at the ports -/

/-- No phase works both ports (R105, R106). -/
theorem State.outValid_of_inReady {s : State} (h : s.inReady = true) : s.outValid = false := by
  cases hp : s.phase <;> simp_all [State.inReady, State.outValid]

/-- All a step of the decoder can do at the ports: it holds, or its phase works neither port, or it makes one transfer. -/
theorem State.decoderStep_transfers {s t : State} (h : s.decoderStep = .next t) :
    t = s ∨ (s.inReady = false ∧ s.outValid = false ∧ s.KeepsPorts t) ∨ (∃ b, s.TakesInput t b) ∨
      ∃ v, s.EmitsOutput t v := by
  rcases s.decoderStep_cases with ⟨-, hs⟩ | ⟨-, hs⟩ | ⟨hp, hs⟩ | ⟨hp, hs⟩ | ⟨-, -, hs⟩ | ⟨-, -, hs⟩ |
      ⟨b, _, hp, ho, hs⟩ | ⟨b, _, hp, ho, hs⟩ | ⟨hp, hr, hs⟩ | ⟨b, _, hp, ho, hs⟩ | ⟨b, _, hp, ho, hs⟩ |
      ⟨hp, hr, hs⟩ <;> obtain rfl := Host.Outcome.next.inj (h.symm.trans hs)
  · exact .inl rfl
  · exact .inl rfl
  · exact .inr (.inl ⟨by simp [State.inReady, hp], by simp [State.outValid, hp], s.loopTest_keepsPorts⟩)
  · exact .inr (.inl ⟨by simp [State.inReady, hp], by simp [State.outValid, hp], s.extractBit_keepsPorts⟩)
  · exact .inl rfl
  · exact .inl rfl
  · exact .inr (.inr (.inl ⟨b, State.refill_takesInput hp ho⟩))
  · exact .inr (.inr (.inl ⟨b, State.literalIn_takesInput hp ho⟩))
  · exact .inr (.inr (.inr ⟨_, State.literalOut_emitsOutput hp hr⟩))
  · exact .inr (.inr (.inl ⟨b, State.tokenStart_takesInput hp ho⟩))
  · exact .inr (.inr (.inl ⟨b, State.tokenResolve_takesInput hp ho⟩))
  · exact .inr (.inr (.inr ⟨_, State.copyStep_emitsOutput hp hr⟩))

/-- Settles O38: a step holds, works neither port, or makes exactly one transfer; the last two exclude the hold's
premise. -/
theorem atMostOneTransfer : Obligations.AtMostOneTransfer := by
  intro s t h
  rcases State.decoderStep_transfers h with rfl | ⟨hni, hno, hk⟩ | ⟨b, hb⟩ | ⟨v, hv⟩
  · exact ⟨.inl ⟨rfl, rfl, rfl⟩, .inl ⟨rfl, rfl, rfl⟩, .inl rfl, fun _ => rfl⟩
  · refine ⟨.inl ⟨hk.input, hk.offered, hk.srcPos⟩, .inl ⟨hk.output, hk.dstLen, hk.dict⟩, .inl hk.input, ?_⟩
    simp [hni, hno]
  · refine ⟨.inr ⟨hb.ready, b, hb.offered, hb.input, hb.srcPos⟩, .inl ⟨hb.output, hb.dstLen, hb.dict⟩,
      .inr hb.output, ?_⟩
    simp [hb.offered, State.outValid_of_inReady hb.ready]
  · refine ⟨.inl ⟨hv.input, hv.offered, hv.srcPos⟩,
      .inr ⟨hv.valid, hv.ready, v, hv.data, hv.output, hv.dstLen, hv.dict⟩, .inl hv.input, ?_⟩
    have hni : s.inReady ≠ true := fun hi => by simpa [hv.valid] using State.outValid_of_inReady hi
    simp [hni, hv.ready]

/-! ## The unit a step runs -/

theorem unitAt_of_decodeAt {p : Position} {bytes rest : List Byte} {i : Instr}
    (h : decodeAt p bytes = .ok (i, rest)) : unitAt p bytes = some i := by
  rw [unitAt, h]

/-- Bytes that follow a unit do not change what it decodes to. -/
theorem decodeAt_append {p : Position} {bytes rest : List Byte} {i : Instr} (h : decodeAt p bytes = .ok (i, rest))
    (more : List Byte) : decodeAt p (bytes ++ more) = .ok (i, rest ++ more) := by
  revert h
  fun_cases decodeAt p bytes <;> rintro ⟨⟩ <;> rfl

/-- In a phase that works a port, the step of the decoder is exec of the unit in progress. -/
theorem State.decoderStep_of_unitInProgress {s : State} {i : Instr} (h : s.unitInProgress = some i) :
    s.decoderStep = exec i s := by
  have hu : s.unitStep = exec i s := by rw [State.unitStep, h]
  cases hp : s.phase with
  | idle | done | top | unit => simp [State.unitInProgress, hp] at h
  | refill | lit | litOut | br0 | br1 | copy => rw [State.decoderStep, hp, hu]

theorem State.decoderStep_refill {s : State} {i : Instr} {rest : List Byte} (hp : s.phase = .refill)
    (hd : decodeAt .control s.offered = .ok (i, rest)) : s.decoderStep = exec i s :=
  State.decoderStep_of_unitInProgress (by rw [State.unitInProgress, hp]; exact unitAt_of_decodeAt hd)

theorem State.decoderStep_lit {s : State} {i : Instr} {rest : List Byte} (hp : s.phase = .lit)
    (hd : decodeAt (.unit true) s.offered = .ok (i, rest)) : s.decoderStep = exec i s :=
  State.decoderStep_of_unitInProgress (by rw [State.unitInProgress, hp]; exact unitAt_of_decodeAt hd)

theorem State.decoderStep_litOut {s : State} (hp : s.phase = .litOut) : s.decoderStep = exec (.lit s.litData) s :=
  State.decoderStep_of_unitInProgress (by rw [State.unitInProgress, hp]; rfl)

/-- In BR0 the byte put down for a second one not offered changes no token that is offered whole. -/
theorem State.decoderStep_br0 {s : State} {i : Instr} {rest : List Byte} (hp : s.phase = .br0)
    (hd : decodeAt (.unit false) s.offered = .ok (i, rest)) : s.decoderStep = exec i s :=
  State.decoderStep_of_unitInProgress (by
    rw [State.unitInProgress, hp]; exact unitAt_of_decodeAt (decodeAt_append hd [0]))

/-- In BR0 exec reads only the token's first byte (R79). -/
theorem exec_bref_br0 {s : State} (hp : s.phase = .br0) (offset : WinPos) (length : Nat) :
    exec (.bref offset length) s = .next (s.tokenStart (tokenFirst offset)) :=
  execBref_next.mpr (.inl ⟨hp, rfl⟩)

theorem State.decoderStep_br0_firstByte {s : State} {b0 : Byte} {offset : WinPos} (hp : s.phase = .br0)
    (ho : s.offered = [b0]) (hf : tokenFirst offset = b0) (length : Nat) :
    s.decoderStep = exec (.bref offset length) s := by
  have hu : s.unitInProgress = some (.bref (tokenOffset b0 0) (tokenLength 0)) := by
    rw [State.unitInProgress, hp, ho]; rfl
  rw [State.decoderStep_of_unitInProgress hu, exec_bref_br0 hp, exec_bref_br0 hp, tokenFirst_tokenOffset, hf]

theorem State.decoderStep_br1 {s : State} {i : Instr} {rest : List Byte} (hp : s.phase = .br1)
    (hd : decodeAt (.unit false) (s.tokLo :: s.offered) = .ok (i, rest)) : s.decoderStep = exec i s :=
  State.decoderStep_of_unitInProgress (by rw [State.unitInProgress, hp]; exact unitAt_of_decodeAt hd)

/-- In COPY exec reads no operand (R84). -/
theorem exec_bref_copy {s : State} (hp : s.phase = .copy) (offset : WinPos) (length : Nat) :
    exec (.bref offset length) s = .next s.copyStep :=
  execBref_next.mpr (.inr (.inr ⟨hp, rfl⟩))

theorem State.decoderStep_copy {s : State} (hp : s.phase = .copy) (offset : WinPos) (length : Nat) :
    s.decoderStep = exec (.bref offset length) s := by
  have hu : s.unitInProgress = some (.bref (s.copySrc.extractLsb' 0 12) s.copyRem.toNat) := by
    rw [State.unitInProgress, hp]
  rw [State.decoderStep_of_unitInProgress hu, exec_bref_copy hp, exec_bref_copy hp]

/-- Where the decoder makes the step, in a state that differs from `s` in the moves alone. -/
theorem step_of_decoder_turn {s u : State}
    (h : (s.moves = [] ∧ u = s) ∨ ∃ ms, s.moves = .decoder :: ms ∧ u = { s with moves := ms }) :
    step s = u.decoderStep ∧ s.phase = u.phase ∧ s.offered = u.offered ∧ s.litData = u.litData ∧
      s.tokLo = u.tokLo := by
  rcases h with ⟨hm, rfl⟩ | ⟨ms, hm, rfl⟩
  · exact ⟨step_of_no_moves hm, rfl, rfl, rfl, rfl⟩
  · exact ⟨step_of_move hm, rfl, rfl, rfl, rfl⟩

/-- Settles O14: one lemma per phase of a unit for the decoder's turn, and `step_of_move` for every other. -/
theorem stepRunsDecodedUnit : Obligations.StepRunsDecodedUnit := by
  refine ⟨fun s u h => ?_, fun s m ms => step_of_move⟩
  obtain ⟨hstep, hphase, hoffered, hlit, htok⟩ := step_of_decoder_turn h
  rw [hstep, hphase, hoffered, hlit, htok]
  exact ⟨rfl, fun _ _ => State.decoderStep_refill, fun _ _ => State.decoderStep_lit,
    fun _ _ => State.decoderStep_br0, fun _ _ length hp ho hf => State.decoderStep_br0_firstByte hp ho hf length,
    fun _ _ => State.decoderStep_br1, State.decoderStep_litOut,
    fun offset length hp => State.decoderStep_copy hp offset length⟩

end Sys2Proof.Machine
end

section
/-!
SUPPORT. What a step of the decoder and of the machine changes, written out once: one constructor per row of PHASE's
table (spec/10_state.md R25) and per transfer, with the whole state after it.
-/

namespace Sys2Proof.Machine

/-! ## A step of the decoder -/

/-- `s.Turn t`: a step of the decoder takes `s` to `t`. Each constructor is one way out of a phase, with its guard and
the state it leaves (R25, R69, R71, R75, R76, R79, R80, R84, R94). -/
inductive State.Turn (s : State) : State → Prop where
  | wait (h : s.phase = .idle ∨ s.phase = .done ∨ (s.inReady = true ∧ s.offered = []) ∨
      (s.outValid = true ∧ s.outReady = false)) : s.Turn s
  | stopClean (hp : s.phase = .top) (he : s.srcPos = s.srcLen) : s.Turn (s.finish .clean)
  | goRefill (hp : s.phase = .top) (hl : s.srcPos ≠ s.srcLen) (hc : s.ctrlCnt = 0) :
      s.Turn { s with phase := .refill }
  | goUnit (hp : s.phase = .top) (hl : s.srcPos ≠ s.srcLen) (hc : s.ctrlCnt ≠ 0) : s.Turn { s with phase := .unit }
  | bitLiteral (hp : s.phase = .unit) (hb : s.ctrlByte[0] = true) :
      s.Turn { s with ctrlByte := s.ctrlByte >>> 1, ctrlCnt := s.ctrlCnt - 1, phase := .lit }
  | bitToken (hp : s.phase = .unit) (hb : s.ctrlByte[0] = false) :
      s.Turn { s with ctrlByte := s.ctrlByte >>> 1, ctrlCnt := s.ctrlCnt - 1, phase := .br0 }
  | stopTail {b : Byte} {rest : List Byte} (hp : s.phase = .refill) (ho : s.offered = b :: rest)
      (he : s.srcPos.toNat + 1 = s.srcLen.toNat) :
      s.Turn (State.finish { s with
        offered := rest, input := s.input ++ [b], srcPos := s.srcPos + 1, ctrlByte := b, ctrlCnt := 8 } .tail)
  | takeControl {b : Byte} {rest : List Byte} (hp : s.phase = .refill) (ho : s.offered = b :: rest)
      (hl : s.srcPos.toNat + 1 ≠ s.srcLen.toNat) :
      s.Turn { s with
        offered := rest, input := s.input ++ [b], srcPos := s.srcPos + 1, ctrlByte := b, ctrlCnt := 8
        phase := .unit }
  | takeLiteral {d : Byte} {rest : List Byte} (hp : s.phase = .lit) (ho : s.offered = d :: rest) :
      s.Turn { s with
        offered := rest, input := s.input ++ [d], srcPos := s.srcPos + 1, litData := d, phase := .litOut }
  | emitLiteral (hp : s.phase = .litOut) (hr : s.outReady = true) :
      s.Turn { s with
        output := s.output ++ [s.litData], dict := s.dict.write s.dstLen.toNat s.litData, dstLen := s.dstLen + 1
        winCtr := (winAdvance s.winCtr s.winOrigin 1).1, winOrigin := (winAdvance s.winCtr s.winOrigin 1).2
        phase := .top }
  | stopOverrun {b : Byte} {rest : List Byte} (hp : s.phase = .br0) (ho : s.offered = b :: rest)
      (he : s.srcLen.toNat < s.srcPos.toNat + 2) :
      s.Turn (State.finish { s with
        offered := rest, input := s.input ++ [b], srcPos := s.srcPos + 1 } .overrun)
  | takeTokenFirst {b : Byte} {rest : List Byte} (hp : s.phase = .br0) (ho : s.offered = b :: rest)
      (hl : s.srcPos.toNat + 2 ≤ s.srcLen.toNat) :
      s.Turn { s with
        offered := rest, input := s.input ++ [b], srcPos := s.srcPos + 1, tokLo := b, phase := .br1 }
  | takeTokenSecond {b : Byte} {rest : List Byte} {a : WinPos × BitVec 32} {p : Int} (hp : s.phase = .br1)
      (ho : s.offered = b :: rest) (ha : winAdvance s.winCtr s.winOrigin (tokenLength b) = a)
      (hres : resolve (tokenOffset s.tokLo b) a.2 s.dstLen = p) :
      s.Turn { s with
        offered := rest, input := s.input ++ [b], srcPos := s.srcPos + 1, winCtr := a.1, winOrigin := a.2
        status := s.status.flagForward p s.dstLen
        copySrc := BitVec.ofInt 33 p, copyRem := BitVec.ofNat 5 (tokenLength b), phase := .copy }
  | copyLast (hp : s.phase = .copy) (hr : s.outReady = true) (hl : s.copyRem = 1) :
      s.Turn { s with
        output := s.output ++ [s.copyByte], dict := s.dict.write s.dstLen.toNat s.copyByte, dstLen := s.dstLen + 1
        status := s.status.flagZeroFill s.copySrc.toInt, copySrc := s.copySrc + 1, copyRem := s.copyRem - 1
        phase := .top }
  | copyMore (hp : s.phase = .copy) (hr : s.outReady = true) (hl : s.copyRem ≠ 1) :
      s.Turn { s with
        output := s.output ++ [s.copyByte], dict := s.dict.write s.dstLen.toNat s.copyByte, dstLen := s.dstLen + 1
        status := s.status.flagZeroFill s.copySrc.toInt, copySrc := s.copySrc + 1, copyRem := s.copyRem - 1
        phase := .copy }

theorem State.turn_loopTest {s : State} (hp : s.phase = .top) : s.Turn s.loopTest := by
  unfold State.loopTest
  split
  · exact .stopClean hp ‹_›
  · split
    · exact .goRefill hp ‹_› ‹_›
    · exact .goUnit hp ‹_› ‹_›

theorem State.turn_extractBit {s : State} (hp : s.phase = .unit) : s.Turn s.extractBit := by
  unfold State.extractBit
  split
  · exact .bitLiteral hp ‹_›
  · exact .bitToken hp (Bool.eq_false_of_not_eq_true ‹_›)

theorem State.turn_refill {s : State} {b : Byte} {rest : List Byte} (hp : s.phase = .refill)
    (ho : s.offered = b :: rest) : s.Turn (s.refill b) := by
  rw [State.refill_of_cons ho]
  dsimp only
  split
  · exact .stopTail hp ho ‹_›
  · exact .takeControl hp ho ‹_›

theorem State.turn_tokenStart {s : State} {b : Byte} {rest : List Byte} (hp : s.phase = .br0)
    (ho : s.offered = b :: rest) : s.Turn (s.tokenStart b) := by
  rw [State.tokenStart_of_cons ho]
  dsimp only
  split
  · exact .stopOverrun hp ho ‹_›
  · exact .takeTokenFirst hp ho (Nat.le_of_not_lt ‹_›)

theorem State.turn_copyStep {s : State} (hp : s.phase = .copy) (hr : s.outReady = true) : s.Turn s.copyStep := by
  rw [State.copyStep_of_ready hr]
  split
  · exact .copyLast hp hr ‹_›
  · exact .copyMore hp hr ‹_›

/-- Every state has a step of the decoder, and it is one of the constructors. -/
theorem State.exists_turn (s : State) : ∃ t, s.decoderStep = .next t ∧ s.Turn t := by
  rcases s.decoderStep_cases with ⟨hp, hs⟩ | ⟨hp, hs⟩ | ⟨hp, hs⟩ | ⟨hp, hs⟩ | ⟨hi, ho, hs⟩ | ⟨hv, hr, hs⟩ |
      ⟨b, rest, hp, ho, hs⟩ | ⟨b, rest, hp, ho, hs⟩ | ⟨hp, hr, hs⟩ | ⟨b, rest, hp, ho, hs⟩ |
      ⟨b, rest, hp, ho, hs⟩ | ⟨hp, hr, hs⟩ <;> refine ⟨_, hs, ?_⟩
  · exact .wait (.inl hp)
  · exact .wait (.inr (.inl hp))
  · exact State.turn_loopTest hp
  · exact State.turn_extractBit hp
  · exact .wait (.inr (.inr (.inl ⟨hi, ho⟩)))
  · exact .wait (.inr (.inr (.inr ⟨hv, hr⟩)))
  · exact State.turn_refill hp ho
  · rw [State.literalIn_of_cons ho]; exact .takeLiteral hp ho
  · rw [State.literalOut_of_ready hr]; exact .emitLiteral hp hr
  · exact State.turn_tokenStart hp ho
  · rw [State.tokenResolve_of_cons ho]; exact .takeTokenSecond hp ho rfl rfl
  · exact State.turn_copyStep hp hr


/-! The converse: each constructor is the step its guard selects. -/

theorem State.decoderStep_of_wait {s : State}
    (h : s.phase = .idle ∨ s.phase = .done ∨ (s.inReady = true ∧ s.offered = []) ∨
      (s.outValid = true ∧ s.outReady = false)) : s.decoderStep = .next s := by
  rcases h with hp | hp | h
  · rw [State.decoderStep, hp]
  · rw [State.decoderStep, hp]
  · obtain ⟨t, ht, -⟩ := s.exists_turn
    obtain ⟨-, -, -, hold⟩ := atMostOneTransfer s t ht
    rw [ht, hold h]

theorem State.decoderStep_refill_of_cons {s : State} {b : Byte} {rest : List Byte} (hp : s.phase = .refill)
    (ho : s.offered = b :: rest) : s.decoderStep = .next (s.refill b) := by
  rw [State.decoderStep_refill hp (by rw [ho]; exact decodeAt_control b rest)]
  exact execCtrl_next.mpr ⟨hp, rfl⟩

theorem State.decoderStep_lit_of_cons {s : State} {d : Byte} {rest : List Byte} (hp : s.phase = .lit)
    (ho : s.offered = d :: rest) : s.decoderStep = .next (s.literalIn d) := by
  rw [State.decoderStep_lit hp (by rw [ho]; exact decodeAt_literal d rest)]
  exact execLit_next.mpr (.inl ⟨hp, rfl⟩)

theorem State.decoderStep_br0_of_cons {s : State} {b : Byte} {rest : List Byte} (hp : s.phase = .br0)
    (ho : s.offered = b :: rest) : s.decoderStep = .next (s.tokenStart b) := by
  cases rest with
  | nil => rw [State.decoderStep_br0_firstByte hp ho (tokenFirst_tokenOffset b 0) 3, exec_bref_br0 hp,
      tokenFirst_tokenOffset]
  | cons b1 rest => rw [State.decoderStep_br0 hp (by rw [ho]; exact decodeAt_token b b1 rest), exec_bref_br0 hp,
      tokenFirst_tokenOffset]

theorem State.decoderStep_br1_of_cons {s : State} {b : Byte} {rest : List Byte} (hp : s.phase = .br1)
    (ho : s.offered = b :: rest) : s.decoderStep = .next (s.tokenResolve b) := by
  rw [State.decoderStep_br1 hp (by rw [ho]; exact decodeAt_token s.tokLo b rest)]
  exact execBref_next.mpr (.inr (.inl ⟨hp, by rw [tokenSecond_tokenOffset]⟩))

theorem State.Turn.decoderStep_eq {s t : State} (h : s.Turn t) : s.decoderStep = .next t := by
  cases h with
  | wait h => exact State.decoderStep_of_wait h
  | stopClean hp he => rw [State.decoderStep, hp]; exact congrArg _ (if_pos he)
  | goRefill hp hl hc => rw [State.decoderStep, hp]; exact congrArg _ ((if_neg hl).trans (if_pos hc))
  | goUnit hp hl hc => rw [State.decoderStep, hp]; exact congrArg _ ((if_neg hl).trans (if_neg hc))
  | bitLiteral hp hb => rw [State.decoderStep, hp]; simp only [State.extractBit, hb, if_true]
  | bitToken hp hb => rw [State.decoderStep, hp]; simp [State.extractBit, hb]
  | stopTail hp ho he =>
    rw [State.decoderStep_refill_of_cons hp ho, State.refill_of_cons ho]; exact congrArg _ (if_pos he)
  | takeControl hp ho hl =>
    rw [State.decoderStep_refill_of_cons hp ho, State.refill_of_cons ho]; exact congrArg _ (if_neg hl)
  | takeLiteral hp ho => rw [State.decoderStep_lit_of_cons hp ho, State.literalIn_of_cons ho]
  | emitLiteral hp hr =>
    rw [State.decoderStep_litOut hp, execLit_next.mpr (.inr ⟨hp, rfl⟩), State.literalOut_of_ready hr]
  | stopOverrun hp ho he =>
    rw [State.decoderStep_br0_of_cons hp ho, State.tokenStart_of_cons ho]; exact congrArg _ (if_pos he)
  | takeTokenFirst hp ho hl =>
    rw [State.decoderStep_br0_of_cons hp ho, State.tokenStart_of_cons ho]
    exact congrArg _ (if_neg (Nat.not_lt.mpr hl))
  | takeTokenSecond hp ho ha hres =>
    subst ha hres; rw [State.decoderStep_br1_of_cons hp ho, State.tokenResolve_of_cons ho]
  | copyLast hp hr hl =>
    rw [State.decoderStep_copy hp 0 0, exec_bref_copy hp, State.copyStep_of_ready hr, if_pos hl]
  | copyMore hp hr hl =>
    rw [State.decoderStep_copy hp 0 0, exec_bref_copy hp, State.copyStep_of_ready hr, if_neg hl]

/-- The turns of a state are the steps of its decoder. -/
theorem State.decoderStep_eq_next {s t : State} : s.decoderStep = .next t ↔ s.Turn t := by
  refine ⟨fun h => ?_, State.Turn.decoderStep_eq⟩
  obtain ⟨u, hu, ht⟩ := s.exists_turn
  obtain rfl := Host.Outcome.next.inj (hu.symm.trans h)
  exact ht

/-! ## A step of the machine -/

/-- `s.Change t`: what a move of the host other than reset makes of the block, or the decoder's turn. -/
inductive State.Change (s : State) : State → Prop where
  | turn {t : State} (h : s.Turn t) : s.Change t
  | start (hb : s.status.busy = false) : s.Change s.start
  | srcLen (hb : s.status.busy = false) (n : BitVec 24) : s.Change { s with srcLen := n }
  | host (offered : List Byte) (ready : Bool) (got : List Word) :
      s.Change { s with offered := offered, outReady := ready, got := got }

theorem State.change_writeReg (s : State) (x : Word) (r : Reg) : s.Change (s.writeReg x r) := by
  rcases s.writeReg_cases x r with h | ⟨hb, -, -, h⟩ | ⟨hb, -, h⟩ <;> rw [h]
  · exact .host s.offered s.outReady s.got
  · exact .start hb
  · exact .srcLen hb _

theorem State.change_of_move {s t : State} {m : HostMove} (h : s.move m = .next t) (hm : m ≠ .reset) :
    s.Change t := by
  rcases State.move_cases h with ⟨offset, x, -, -, rfl⟩ | ⟨offset, -, -, rfl⟩ | ⟨b, -, rfl⟩ | ⟨-, rfl⟩ |
      ⟨r, -, rfl⟩ | ⟨hr, -⟩ | ⟨-, hd⟩
  · exact s.change_writeReg x _
  · exact .host s.offered s.outReady _
  · exact .host _ s.outReady s.got
  · exact .host [] s.outReady s.got
  · exact .host s.offered r s.got
  · exact absurd hr hm
  · exact .turn (State.decoderStep_eq_next.mp hd)

/-- All a step of the machine can do: it takes a move from the list, if one is pending, and then resets the block or
changes it by a turn or by another move. -/
theorem step_cases {s t : State} (h : step s = .next t) :
    ∃ ms, (s.moves = .reset :: ms ∧ t = State.resetBlock { s with moves := ms }) ∨
      (s.moves.head? ≠ some .reset ∧ State.Change { s with moves := ms } t) := by
  cases hm : s.moves with
  | nil =>
    rw [step_of_no_moves hm] at h
    exact ⟨s.moves, .inr ⟨by simp, .turn (State.decoderStep_eq_next.mp h)⟩⟩
  | cons m ms =>
    rw [step_of_move hm] at h
    refine ⟨ms, ?_⟩
    by_cases hr : m = .reset
    · subst hr
      exact .inl ⟨rfl, (Host.Outcome.next.inj h).symm⟩
    · exact .inr ⟨by simpa using hr, State.change_of_move h hr⟩

end Sys2Proof.Machine
end

section
/-!
SUPPORT. The invariant of the block (Safety.lean), part by part: every turn of the decoder keeps it, and so does every
move of the host.
-/

namespace Sys2Proof.Machine

variable {s t : State}

/-! ## Status (R28) -/

theorem State.finish_statusAgrees (s : State) {c : EndCause} (hc : c ≠ .none) : (s.finish c).StatusAgrees where
  busy := by simp [State.Running]
  done := by simp
  endCause := by simp [hc]

/-- Within a run BUSY, DONE and END stand still. -/
theorem State.StatusAgrees.of_running (h : s.StatusAgrees) (hs : s.Running) (ht : t.Running)
    (hb : t.status.busy = s.status.busy) (hd : t.status.done = s.status.done)
    (he : t.status.endCause = s.status.endCause) : t.StatusAgrees where
  busy := by rw [hb]; exact iff_of_true (h.busy.mpr hs) ht
  done := by rw [hd, h.done]; exact iff_of_false hs.2 ht.2
  endCause := by rw [he, h.endCause]; exact iff_of_true hs.2 ht.2

theorem State.Turn.statusAgrees (ht : s.Turn t) (h : s.StatusAgrees) : t.StatusAgrees := by
  cases ht with
  | wait => exact h
  | stopClean | stopTail | stopOverrun => exact State.finish_statusAgrees _ (by decide)
  | goRefill hp | goUnit hp | bitLiteral hp | bitToken hp | takeControl hp | takeLiteral hp | emitLiteral hp
  | takeTokenFirst hp | takeTokenSecond hp | copyLast hp | copyMore hp =>
    exact h.of_running (by simp [State.Running, hp]) (by simp [State.Running]) rfl rfl rfl

/-! ## The source cursor and the control bits (R97, R20, R21) -/

theorem State.SourceAgrees.finish {c : EndCause} (taken : s.input.length = s.srcPos.toNat)
    (count : s.ctrlCnt.toNat ≤ 8) (unused : s.ctrlByte.toNat < 2 ^ s.ctrlCnt.toNat) : (s.finish c).SourceAgrees where
  within h := absurd rfl h.2
  byteLeft := nofun
  taken := taken
  count := count
  unused := unused
  unitHasBit := nofun
  refillHasNone := nofun

/-- SRC_POS does not wrap where a byte is left. -/
theorem State.srcPos_succ (h : s.srcPos.toNat < s.srcLen.toNat) : (s.srcPos + 1).toNat = s.srcPos.toNat + 1 :=
  BitVec.toNat_add_of_lt (by have := s.srcLen.isLt; simp; omega)

theorem State.SourceAgrees.taken_succ (h : s.SourceAgrees) (hl : s.srcPos.toNat < s.srcLen.toNat) (b : Byte) :
    (s.input ++ [b]).length = (s.srcPos + 1).toNat := by
  rw [State.srcPos_succ hl, List.length_append, h.taken]
  rfl

/-- Where the loop test does not stop the run, a byte is left. -/
theorem State.SourceAgrees.byteLeft_of_top (h : s.SourceAgrees) (hp : s.phase = .top) (hl : s.srcPos ≠ s.srcLen) :
    s.srcPos.toNat < s.srcLen.toNat :=
  lt_of_le_of_ne (h.within (by simp [State.Running, hp])) (BitVec.toNat_ne_iff_ne.mpr hl)

/-- A byte of a unit is taken; the control bits stand still. -/
theorem State.SourceAgrees.of_unitByte (h : s.SourceAgrees) (hs : s.needsByte = true) {b : Byte}
    (hin : t.input = s.input ++ [b]) (hpos : t.srcPos = s.srcPos + 1) (hlen : t.srcLen = s.srcLen)
    (hbyte : t.ctrlByte = s.ctrlByte) (hcnt : t.ctrlCnt = s.ctrlCnt)
    (hleft : t.needsByte = true → s.srcPos.toNat + 1 < s.srcLen.toNat) (hu : t.phase ≠ .unit)
    (hr : t.phase ≠ .refill) : t.SourceAgrees := by
  have hlt := h.byteLeft hs
  have hnext : t.srcPos.toNat = s.srcPos.toNat + 1 := by rw [hpos, State.srcPos_succ hlt]
  exact {
    within := fun _ => by rw [hnext, hlen]; exact hlt
    byteLeft := fun hn => by rw [hnext, hlen]; exact hleft hn
    taken := by rw [hin, hpos]; exact h.taken_succ hlt b
    count := by rw [hcnt]; exact h.count
    unused := by rw [hbyte, hcnt]; exact h.unused
    unitHasBit := fun hp => absurd hp hu
    refillHasNone := fun hp => absurd hp hr }

/-- A control bit is taken: the others move down by one place (R71). -/
theorem State.SourceAgrees.of_bit (h : s.SourceAgrees) (hp : s.phase = .unit) {q : Phase} (hu : q ≠ .unit)
    (hr : q ≠ .refill) :
    State.SourceAgrees { s with ctrlByte := s.ctrlByte >>> 1, ctrlCnt := s.ctrlCnt - 1, phase := q } := by
  have hlt := h.byteLeft (by simp [State.needsByte, hp])
  have hbit := h.unitHasBit hp
  have hcount := h.count
  have hcnt : (s.ctrlCnt - 1).toNat = s.ctrlCnt.toNat - 1 := by bv_omega
  have hpow : 2 ^ s.ctrlCnt.toNat = 2 ^ (s.ctrlCnt.toNat - 1) * 2 := by rw [← Nat.pow_succ]; congr 1; omega
  exact { h with
    within := fun _ => hlt.le
    byteLeft := fun _ => hlt
    count := by simp only [hcnt]; omega
    unused := by
      have := h.unused
      simp only [hcnt, BitVec.toNat_ushiftRight, Nat.shiftRight_eq_div_pow]
      omega
    unitHasBit := fun e => absurd e hu
    refillHasNone := fun e => absurd e hr }

/-- The output half of a unit: the source stands still. -/
theorem State.SourceAgrees.of_emit (h : s.SourceAgrees) (hs : s.Running) (hin : t.input = s.input)
    (hpos : t.srcPos = s.srcPos) (hlen : t.srcLen = s.srcLen) (hbyte : t.ctrlByte = s.ctrlByte)
    (hcnt : t.ctrlCnt = s.ctrlCnt) (hn : t.needsByte = false) : t.SourceAgrees where
  within _ := by rw [hpos, hlen]; exact h.within hs
  byteLeft e := by rw [hn] at e; cases e
  taken := by rw [hin, hpos]; exact h.taken
  count := by rw [hcnt]; exact h.count
  unused := by rw [hbyte, hcnt]; exact h.unused
  unitHasBit e := by simp [State.needsByte, e] at hn
  refillHasNone e := by simp [State.needsByte, e] at hn

theorem State.Turn.sourceAgrees (ht : s.Turn t) (h : s.SourceAgrees) : t.SourceAgrees := by
  cases ht with
  | wait => exact h
  | stopClean => exact .finish h.taken h.count h.unused
  | goRefill hp hl hc =>
    have hlt := h.byteLeft_of_top hp hl
    exact { h with
      within := fun _ => hlt.le, byteLeft := fun _ => hlt, unitHasBit := nofun, refillHasNone := fun _ => hc }
  | goUnit hp hl hc =>
    have hlt := h.byteLeft_of_top hp hl
    exact { h with
      within := fun _ => hlt.le, byteLeft := fun _ => hlt, unitHasBit := fun _ => by bv_omega, refillHasNone := nofun }
  | bitLiteral hp | bitToken hp => exact h.of_bit hp (by decide) (by decide)
  | stopTail hp ho he => exact .finish (h.taken_succ (by omega) _) (by simp) (BitVec.isLt _)
  | takeControl hp ho hl =>
    have hlt := h.byteLeft (by simp [State.needsByte, hp])
    have hlt' : (s.srcPos + 1).toNat < s.srcLen.toNat := by rw [State.srcPos_succ hlt]; omega
    exact { h with
      within := fun _ => hlt'.le, byteLeft := fun _ => hlt'
      taken := h.taken_succ hlt _, count := by simp
      unused := BitVec.isLt _
      unitHasBit := by simp
      refillHasNone := nofun }
  | takeLiteral hp | takeTokenSecond hp =>
    exact h.of_unitByte (by simp [State.needsByte, hp]) rfl rfl rfl rfl rfl nofun nofun nofun
  | takeTokenFirst hp ho hl =>
    exact h.of_unitByte (by simp [State.needsByte, hp]) rfl rfl rfl rfl rfl (fun _ => hl) nofun nofun
  | stopOverrun hp ho he =>
    exact .finish (h.taken_succ (h.byteLeft (by simp [State.needsByte, hp])) _) h.count h.unused
  | emitLiteral hp | copyLast hp | copyMore hp =>
    exact h.of_emit (by simp [State.Running, hp]) rfl rfl rfl rfl rfl rfl

/-! ## The output bound (R85) -/

/-- The bound keeps DST_LEN far from a wrap. -/
theorem State.Inv.dstLen_lt (h : s.Inv) : s.dstLen.toNat + s.owed < 2 ^ 28 := by
  have := h.output.bound
  have := s.srcPos.isLt
  omega

theorem State.Inv.dstLen_succ (h : s.Inv) : (s.dstLen + 1).toNat = s.dstLen.toNat + 1 :=
  BitVec.toNat_add_of_lt (by have := h.dstLen_lt; simp; omega)

theorem tokenLength_toNat (b : Byte) : (BitVec.ofNat 5 (tokenLength b)).toNat = tokenLength b := by
  obtain ⟨-, hmax⟩ := tokenLength_bounds b
  rw [BitVec.toNat_ofNat, Nat.mod_eq_of_lt]
  exact lt_of_le_of_lt hmax (by decide)

theorem State.Inv.copyRem_pred (h : s.Inv) (hp : s.phase = .copy) :
    (s.copyRem - 1).toNat + 1 = s.copyRem.toNat := by
  have := h.window.copying.mp hp
  bv_omega

/-- A turn that emits no byte owes nothing new, a byte taken pays for what its unit owes, and an emitted byte was owed
before. -/
theorem State.Turn.bound (ht : s.Turn t) (h : s.Inv) : t.dstLen.toNat + t.owed ≤ 9 * t.srcPos.toNat := by
  have hb := h.output.bound
  have hpos : s.needsByte = true → (s.srcPos + 1).toNat = s.srcPos.toNat + 1 :=
    fun hn => State.srcPos_succ (h.source.byteLeft hn)
  cases ht with
  | wait => exact hb
  | stopClean hp | goRefill hp | goUnit hp | bitLiteral hp | bitToken hp => simpa [State.owed, hp] using hb
  | stopTail hp | takeControl hp | takeLiteral hp | stopOverrun hp | takeTokenFirst hp =>
    have hpos := hpos (by simp [State.needsByte, hp])
    simp only [State.owed, hp, State.finish_phase, State.finish_dstLen, State.finish_srcPos] at hb ⊢
    omega
  | @takeTokenSecond b _ _ _ hp =>
    have hpos := hpos (by simp [State.needsByte, hp])
    have hmax := (tokenLength_bounds b).2
    simp only [State.owed, hp, tokenLength_toNat, Config.maxMatch] at hb hmax ⊢
    omega
  | emitLiteral hp =>
    simp only [State.owed, hp, h.dstLen_succ] at hb ⊢
    omega
  | copyLast hp | copyMore hp =>
    have hpred := h.copyRem_pred hp
    simp only [State.owed, hp, h.dstLen_succ] at hb ⊢
    omega

/-! ## The window and the copy registers (R18, R19, R23, R24, R87) -/

theorem winAdvance_sum {ctr : WinPos} {origin : BitVec 32} {n : Nat} (hn : n ≤ 4096)
    (h : origin.toNat + ctr.toNat + n < 2 ^ 32) :
    (winAdvance ctr origin n).2.toNat + (winAdvance ctr origin n).1.toNat = origin.toNat + ctr.toNat + n := by
  have := ctr.isLt
  by_cases hw : 4096 ≤ ctr.toNat + n
  · rw [winAdvance_of_wrap _ hw, BitVec.toNat_add_of_lt (by simp only [BitVec.toNat_ofNat]; omega)]
    simp only [BitVec.toNat_ofNat]
    omega
  · rw [winAdvance_of_stay _ (by omega)]
    simp only [BitVec.toNat_ofNat]
    omega

theorem winAdvance_origin {origin : BitVec 32} (h : origin.toNat % Config.window = 0) (ctr : WinPos) (n : Nat) :
    (winAdvance ctr origin n).2.toNat % Config.window = 0 := by
  simp only [Config.window] at *
  by_cases hw : 4096 ≤ ctr.toNat + n
  · rw [winAdvance_of_wrap _ hw, BitVec.toNat_add]
    simp only [BitVec.toNat_ofNat]
    omega
  · rwa [winAdvance_of_stay _ (by omega)]

/-- Where the advanced window ends `n` bytes past the write position `w`, a token resolves to at most 4096 bytes behind
`w` and at most 17 ahead of it (R82, R83). -/
theorem resolve_bounds {offset ctr : WinPos} {org w : BitVec 32} {n : Nat} (hn : n ≤ 18)
    (hsum : org.toNat + ctr.toNat = w.toNat + n) :
    -(Config.window : Int) ≤ resolve offset org w ∧ resolve offset org w ≤ w.toNat + 17 ∧
      (w.toNat : Int) ≤ resolve offset org w + Config.window := by
  simp only [Config.window]
  have := offset.isLt
  have := ctr.isLt
  by_cases hp : offset.toNat + org.toNat < w.toNat
  · rw [resolve_behind hp]
    omega
  · rw [resolve_corrected (Nat.le_of_not_lt hp)]
    omega

theorem State.WindowAgrees.copyRem_eq_zero (h : s.WindowAgrees) (hp : s.phase ≠ .copy) : s.copyRem = 0 :=
  not_not.mp (fun hr => hp (h.copying.mpr hr))

/-- Between two phases outside COPY the window stands still. -/
theorem State.WindowAgrees.of_same (h : s.WindowAgrees) (hs : s.phase ≠ .copy) (ht : t.phase ≠ .copy)
    (hctr : t.winCtr = s.winCtr) (horg : t.winOrigin = s.winOrigin) (hlen : t.dstLen = s.dstLen)
    (hsrc : t.copySrc = s.copySrc) (hrem : t.copyRem = s.copyRem) : t.WindowAgrees where
  sum := by rw [hctr, horg, hlen, hrem]; exact h.sum
  origin := by rw [horg]; exact h.origin
  rem := by rw [hrem]; exact h.rem
  copying := by rw [hrem, ← h.copying]; exact iff_of_false ht hs
  srcLow := by rw [hsrc]; exact h.srcLow
  srcHigh := by rw [hsrc, hlen]; exact h.srcHigh
  inWindow hp := absurd hp ht

theorem State.Inv.copySrc_succ (h : s.Inv) : (s.copySrc + 1).toInt = s.copySrc.toInt + 1 := by
  have := h.window.srcLow
  have := h.window.srcHigh
  have := h.dstLen_lt
  simp only [Config.window] at *
  rw [BitVec.toInt_add]
  exact Int.bmod_eq_of_le (by simp; omega) (by simp; omega)

/-- Outside COPY the window, advanced by a unit's `n` bytes, ends at the write position after the unit (R87). -/
theorem State.Inv.advanced_sum (h : s.Inv) (hp : s.phase ≠ .copy) {n : Nat} (hn : n ≤ 18) :
    (winAdvance s.winCtr s.winOrigin n).2.toNat + (winAdvance s.winCtr s.winOrigin n).1.toNat =
      s.dstLen.toNat + n := by
  have hsum : s.winOrigin.toNat + s.winCtr.toNat = s.dstLen.toNat := by
    simpa [h.window.copyRem_eq_zero hp] using h.window.sum
  have := h.dstLen_lt
  rw [winAdvance_sum (by omega) (by omega), hsum]

/-- A token's second byte puts the window ahead by the whole run and the copy at the resolved position (R80). -/
theorem State.Inv.windowAgrees_of_token (h : s.Inv) (hp : s.phase = .br1) {b : Byte} {a : WinPos × BitVec 32} {p : Int}
    (ha : winAdvance s.winCtr s.winOrigin (tokenLength b) = a)
    (hres : resolve (tokenOffset s.tokLo b) a.2 s.dstLen = p) (hctr : t.winCtr = a.1) (horg : t.winOrigin = a.2)
    (hlen : t.dstLen = s.dstLen) (hsrc : t.copySrc = BitVec.ofInt 33 p)
    (hrem : t.copyRem = BitVec.ofNat 5 (tokenLength b)) (hq : t.phase = .copy) : t.WindowAgrees := by
  obtain ⟨hmin, hmax⟩ := tokenLength_bounds b
  have hrem' : t.copyRem.toNat = tokenLength b := by rw [hrem, tokenLength_toNat]
  have hsum : a.2.toNat + a.1.toNat = s.dstLen.toNat + tokenLength b := ha ▸ h.advanced_sum (by simp [hp]) hmax
  obtain ⟨hlow, hhigh, hin⟩ := hres ▸ resolve_bounds (offset := tokenOffset s.tokLo b) hmax hsum
  have hlt := h.dstLen_lt
  have hsrc' : t.copySrc.toInt = p := by
    simp only [Config.window] at hlow
    rw [hsrc, BitVec.toInt_ofInt_eq_self (by decide) (by omega) (by omega)]
  exact {
    sum := by rw [hctr, horg, hlen, hrem', hsum]
    origin := by rw [horg, ← ha]; exact winAdvance_origin h.window.origin _ _
    rem := by rw [hrem']; exact hmax
    copying := iff_of_true hq (BitVec.toNat_ne_iff_ne.mp (by
      rw [hrem']; exact (Nat.lt_of_lt_of_le (by decide) hmin).ne'))
    srcLow := by rw [hsrc']; exact hlow
    srcHigh := by rw [hsrc', hlen]; exact hhigh
    inWindow := fun _ => by rw [hsrc', hlen]; exact hin }

/-- A COPY step emits one byte of the run: the source moves on with the write position (R84). -/
theorem State.Inv.windowAgrees_of_copied (h : s.Inv) (hp : s.phase = .copy) (hctr : t.winCtr = s.winCtr)
    (horg : t.winOrigin = s.winOrigin) (hlen : t.dstLen = s.dstLen + 1) (hsrc : t.copySrc = s.copySrc + 1)
    (hrem : t.copyRem = s.copyRem - 1) (hq : t.phase = .copy ↔ s.copyRem ≠ 1) : t.WindowAgrees := by
  have hw := h.window
  have hpred := h.copyRem_pred hp
  have hlen' : t.dstLen.toNat = s.dstLen.toNat + 1 := by rw [hlen, h.dstLen_succ]
  have hsrc' : t.copySrc.toInt = s.copySrc.toInt + 1 := by rw [hsrc, h.copySrc_succ]
  have hlow := hw.srcLow
  have hhigh := hw.srcHigh
  have hin := hw.inWindow hp
  have hmax := hw.rem
  exact {
    sum := by have := hw.sum; rw [hctr, horg, hrem, hlen']; omega
    origin := by rw [horg]; exact hw.origin
    rem := by rw [hrem]; omega
    copying := by rw [hq, hrem]; bv_omega
    srcLow := by omega
    srcHigh := by omega
    inWindow := fun _ => by omega }

theorem State.Turn.windowAgrees (ht : s.Turn t) (h : s.Inv) : t.WindowAgrees := by
  have hw := h.window
  cases ht with
  | wait => exact hw
  | stopClean hp | goRefill hp | goUnit hp | bitLiteral hp | bitToken hp | stopTail hp | takeControl hp | takeLiteral hp
  | stopOverrun hp | takeTokenFirst hp => exact hw.of_same (by simp [hp]) nofun rfl rfl rfl rfl rfl
  | emitLiteral hp =>
    have hc : s.phase ≠ .copy := by simp [hp]
    have hrem := hw.copyRem_eq_zero hc
    have hhigh := hw.srcHigh
    exact { hw with
      sum := by simp only [h.advanced_sum hc (n := 1) (by decide), h.dstLen_succ, hrem]; rfl
      origin := winAdvance_origin hw.origin _ _
      copying := by simp [hrem]
      srcHigh := by simp only [h.dstLen_succ]; omega
      inWindow := nofun }
  | takeTokenSecond hp ho ha hres => exact h.windowAgrees_of_token hp ha hres rfl rfl rfl rfl rfl rfl
  | copyLast hp hr hl => exact h.windowAgrees_of_copied hp rfl rfl rfl rfl rfl (iff_of_false nofun (not_not.mpr hl))
  | copyMore hp hr hl => exact h.windowAgrees_of_copied hp rfl rfl rfl rfl rfl (iff_of_true rfl hl)

/-! ## The output and the dictionary (R27) -/

/-- Where nothing is emitted, the content law stands. -/
theorem State.OutputAgrees.of_same (h : s.OutputAgrees) (hi : t.phase ≠ .idle → s.phase ≠ .idle)
    (hout : t.output = s.output) (hlen : t.dstLen = s.dstLen) (hdict : t.dict = s.dict)
    (hb : t.dstLen.toNat + t.owed ≤ 9 * t.srcPos.toNat) : t.OutputAgrees where
  emitted := by rw [hout, hlen]; exact h.emitted
  bound := hb
  canonical := by rw [hdict]; exact h.canonical
  content hp := by rw [hout, hlen, hdict]; exact h.content (hi hp)
  unwritten hp := by rw [hlen, hdict]; exact h.unwritten (hi hp)

/-- An emitted byte is written at its own position's slot, and every other position still in the window has another. -/
theorem State.OutputAgrees.of_emitted (h : s.OutputAgrees) (hi : s.phase ≠ .idle) {v : Byte}
    (hout : t.output = s.output ++ [v]) (hlen : t.dstLen.toNat = s.dstLen.toNat + 1)
    (hdict : t.dict = s.dict.write s.dstLen.toNat v)
    (hb : t.dstLen.toNat + t.owed ≤ 9 * t.srcPos.toNat) : t.OutputAgrees where
  emitted := by rw [hout, hlen, List.length_append, h.emitted]; rfl
  bound := hb
  canonical := by rw [hdict]; exact Dict.write_wf h.canonical _ _
  content _ r hr hwin := by
    rw [hout, hdict]
    rcases Nat.lt_succ_iff_lt_or_eq.mp (hlen ▸ hr) with hlt | rfl
    · have hslot : slotOf r ≠ slotOf s.dstLen.toNat := by simp only [slotOf, Config.window] at *; omega
      rw [Dict.read_write_other _ hslot, List.getElem?_append_left (by rw [h.emitted]; exact hlt)]
      exact h.content hi r hlt (by omega)
    · rw [Dict.read_write_same h.canonical rfl, ← h.emitted, List.getElem?_concat_length]
  unwritten _ slot hs hle := by
    have hslot : slotOf slot ≠ slotOf s.dstLen.toNat := by simp only [slotOf, Config.window] at *; omega
    rw [hdict, Dict.read_write_other _ hslot]
    exact h.unwritten hi slot hs (by omega)

/-- The decoder never makes a step out of IDLE. -/
theorem State.Turn.idle (ht : s.Turn t) (hp : s.phase = .idle) : t = s := by
  cases ht with
  | wait => rfl
  | stopClean hq | goRefill hq | goUnit hq | bitLiteral hq | bitToken hq | stopTail hq | takeControl hq
  | takeLiteral hq | emitLiteral hq | stopOverrun hq | takeTokenFirst hq | takeTokenSecond hq | copyLast hq
  | copyMore hq => exact absurd (hp.symm.trans hq) nofun

theorem State.Turn.outputAgrees (ht : s.Turn t) (h : s.Inv) : t.OutputAgrees := by
  have hi : t.phase ≠ .idle → s.phase ≠ .idle := fun hq hp => hq (ht.idle hp ▸ hp)
  rcases State.decoderStep_transfers ht.decoderStep_eq with rfl | ⟨-, -, hk⟩ | ⟨b, hk⟩ | ⟨v, hk⟩
  · exact h.output
  · exact h.output.of_same hi hk.output hk.dstLen hk.dict (ht.bound h)
  · exact h.output.of_same hi hk.output hk.dstLen hk.dict (ht.bound h)
  · have hp : s.phase ≠ .idle := fun hp => by simpa [State.outValid, hp] using hk.valid
    exact h.output.of_emitted hp hk.output (by rw [hk.dstLen, h.dstLen_succ]) hk.dict (ht.bound h)

/-! ## The whole invariant -/

theorem State.Turn.inv (ht : s.Turn t) (h : s.Inv) : t.Inv where
  status := ht.statusAgrees h.status
  source := ht.sourceAgrees h.source
  window := ht.windowAgrees h
  output := ht.outputAgrees h

/-- Every register but SRC_LEN, LIT_DATA and TOK_LO is 0, and the run's streams are empty. -/
structure State.Cleared (s : State) : Prop where
  srcPos : s.srcPos = 0
  dstLen : s.dstLen = 0
  winCtr : s.winCtr = 0
  winOrigin : s.winOrigin = 0
  ctrlByte : s.ctrlByte = 0
  ctrlCnt : s.ctrlCnt = 0
  copySrc : s.copySrc = 0
  copyRem : s.copyRem = 0
  input : s.input = []
  output : s.output = []

/-- A cleared block in IDLE, or in TOP with an empty dictionary, meets the invariant. -/
theorem State.Cleared.inv (h : s.Cleared) (hst : s.StatusAgrees) (hd : s.dict.wf = true)
    (hp : s.phase = .idle ∨ s.phase = .top ∧ s.dict = []) : s.Inv := by
  obtain ⟨hpos, hlen, hctr, horg, hbyte, hcnt, hsrc, hrem, hin, hout⟩ := h
  have hn : s.needsByte = false ∧ s.owed = 0 ∧ s.phase ≠ .unit ∧ s.phase ≠ .copy := by
    rcases hp with hp | ⟨hp, -⟩ <;> simp [State.needsByte, State.owed, hp]
  obtain ⟨hneeds, howed, hunit, hcopy⟩ := hn
  refine ⟨hst, ?_, ?_, ?_⟩
  · exact {
      within := by simp [hpos], byteLeft := by simp [hneeds], taken := by simp [hin, hpos], count := by simp [hcnt]
      unused := by simp [hbyte], unitHasBit := fun e => absurd e hunit, refillHasNone := fun _ => hcnt }
  · exact {
      sum := by simp [hctr, horg, hlen, hrem], origin := by simp [horg], rem := by simp [hrem]
      copying := iff_of_false hcopy (not_not.mpr hrem), srcLow := by simp [hsrc, Config.window]
      srcHigh := by simp [hsrc, hlen], inWindow := fun e => absurd e hcopy }
  · exact {
      emitted := by simp [hout, hlen], bound := by simp [hlen, howed], canonical := hd
      content := by simp [hlen]
      unwritten := fun hi slot _ _ => by
        rcases hp with hp | ⟨-, hd⟩
        · exact absurd hp hi
        · rw [hd, Dict.read_nil] }

theorem State.StatusAgrees.of_reset (hs : s.status = Status.reset) (hp : s.phase = .idle) : s.StatusAgrees where
  busy := by simp [hs, Status.reset, State.Running, hp]
  done := by simp [hs, Status.reset, hp]
  endCause := by simp [hs, Status.reset, hp]

theorem State.reset_inv : State.reset.Inv :=
  State.Cleared.inv ⟨rfl, rfl, rfl, rfl, rfl, rfl, rfl, rfl, rfl, rfl⟩ (.of_reset rfl rfl) Dict.reset_wf (.inl rfl)

theorem State.resetBlock_inv (s : State) : s.resetBlock.Inv :=
  State.Cleared.inv ⟨rfl, rfl, rfl, rfl, rfl, rfl, rfl, rfl, rfl, rfl⟩ (.of_reset rfl rfl) (Dict.load_wf _) (.inl rfl)

theorem State.start_inv (s : State) : s.start.Inv :=
  State.Cleared.inv ⟨rfl, rfl, rfl, rfl, rfl, rfl, rfl, rfl, rfl, rfl⟩
    ⟨by simp [Status.started, State.Running], by simp [Status.started], by simp [Status.started]⟩ rfl
    (.inr ⟨rfl, rfl⟩)

/-- What the host drives, has still to do and has read is not in the invariant. -/
theorem State.Inv.host (h : s.Inv) (offered : List Byte) (ready : Bool) (moves : List HostMove) (got : List Word) :
    State.Inv { s with offered := offered, outReady := ready, moves := moves, got := got } where
  status := { h.status with }
  source := { h.source with }
  window := { h.window with }
  output := { h.output with }

theorem State.Inv.not_running (h : s.Inv) (hb : s.status.busy = false) : s.phase = .idle ∨ s.phase = .done := by
  have := h.status.busy.not.mp (by simp [hb])
  simpa only [State.Running, not_and_or, not_not] using this

/-- Outside a run nothing depends on SRC_LEN. -/
theorem State.Inv.setSrcLen (h : s.Inv) (hb : s.status.busy = false) (n : BitVec 24) :
    State.Inv { s with srcLen := n } where
  status := { h.status with }
  source := { h.source with
    within := fun hr => absurd (h.status.busy.mpr hr) (by simp [hb])
    byteLeft := fun hn => by rcases h.not_running hb with hp | hp <;> simp [State.needsByte, hp] at hn }
  window := { h.window with }
  output := { h.output with }

theorem State.Change.inv (hc : s.Change t) (h : s.Inv) : t.Inv := by
  cases hc with
  | turn ht => exact ht.inv h
  | start => exact s.start_inv
  | srcLen hb n => exact h.setSrcLen hb n
  | host offered ready got => exact h.host offered ready s.moves got

/-- Settles O6: reset clears the block, and any other change keeps the invariant. -/
theorem everyStepKeepsInvariant : Obligations.EveryStepKeepsInvariant := by
  intro s t h hstep
  obtain ⟨ms, ⟨-, rfl⟩ | ⟨-, hc⟩⟩ := step_cases hstep
  · exact State.resetBlock_inv _
  · exact hc.inv (h.host s.offered s.outReady ms s.got)

end Sys2Proof.Machine
end

section
/-!
SUPPORT. The statements of spec/10_state.md that follow from the invariant and from what a step can do: the window sum
(R19), PHASE's table (R25), STATUS (R33), the canonical dictionary (R26), the STATE register (R32) and reset (R35).
-/

namespace Sys2Proof.Machine

/-! ## The invariant's consequences -/

/-- Settles O5: the reset state is a cleared block in IDLE. -/
theorem resetMeetsInvariant : Obligations.ResetMeetsInvariant := State.reset_inv

/-- Outside COPY no byte of a run is outstanding, and WIN_ORIGIN is a multiple of the window. -/
theorem State.WindowAgrees.outside_copy {s : State} (h : s.WindowAgrees) (hp : s.phase ≠ .copy) :
    s.winOrigin.toNat + s.winCtr.toNat = s.dstLen.toNat ∧ s.winCtr.toNat = s.dstLen.toNat % 4096 := by
  have hsum : s.winOrigin.toNat + s.winCtr.toNat = s.dstLen.toNat := by simpa [h.copyRem_eq_zero hp] using h.sum
  have horg := h.origin
  have hctr := s.winCtr.isLt
  rw [Config.window] at horg
  exact ⟨hsum, by omega⟩

/-- Settles O7: reset, START and every step reach a state of the invariant. -/
theorem windowSumAtEveryStep : Obligations.WindowSumAtEveryStep := by
  intro t ht
  have hinv : t.Inv := by
    obtain rfl | ⟨s, rfl⟩ | ⟨s, h, hstep⟩ := ht
    · exact State.reset_inv
    · exact s.start_inv
    · exact everyStepKeepsInvariant s t h hstep
  exact ⟨hinv.window.outside_copy, fun _ => hinv.window.sum⟩

/-! ## PHASE (R25) -/

/-- A turn's change of PHASE is a row of the table. -/
theorem State.Turn.phase_mem_table {s t : State} (ht : s.Turn t) (hne : t.phase ≠ s.phase) :
    (s.phase, t.phase) ∈
      [(Phase.idle, Phase.top), (.top, .done), (.top, .refill), (.top, .unit), (.refill, .done), (.refill, .unit),
       (.unit, .lit), (.unit, .br0), (.lit, .litOut), (.litOut, .top), (.br0, .br1), (.br0, .done), (.br1, .copy),
       (.copy, .top), (.done, .top)] := by
  cases ht with
  | wait => exact absurd rfl hne
  | copyMore hp => exact absurd hp.symm hne
  | stopClean hp | goRefill hp | goUnit hp | bitLiteral hp | bitToken hp | stopTail hp | takeControl hp | takeLiteral hp
  | emitLiteral hp | stopOverrun hp | takeTokenFirst hp | takeTokenSecond hp | copyLast hp => simp [hp]

/-- Settles O37: of the host's moves only START changes PHASE, and the invariant leaves it IDLE and
DONE to start from. -/
theorem phaseChangesByTable : Obligations.PhaseChangesByTable := by
  intro s t h hstep hne hreset
  obtain ⟨ms, ⟨hm, -⟩ | ⟨-, hc⟩⟩ := step_cases hstep
  · simp [hm] at hreset
  · cases hc with
    | turn ht => exact ht.phase_mem_table hne
    | start hb => rcases h.not_running hb with hp | hp <;> simp [hp]
    | srcLen | host => exact absurd rfl hne

/-! ## STATUS (R33) -/

/-- Settles O46: no guard of a turn reads STATUS, so the same turn is there with another one. -/
theorem statusDecidesNoStep : Obligations.StatusDecidesNoStep := by
  intro s t st h
  suffices hst : ∃ st', State.Turn { s with status := st } { t with status := st' } from
    hst.imp fun _ => State.Turn.decoderStep_eq
  cases State.decoderStep_eq_next.mp h with
  | wait hw => exact ⟨_, .wait hw⟩
  | stopClean hp he => exact ⟨_, .stopClean hp he⟩
  | goRefill hp hl hc => exact ⟨_, .goRefill hp hl hc⟩
  | goUnit hp hl hc => exact ⟨_, .goUnit hp hl hc⟩
  | bitLiteral hp hb => exact ⟨_, .bitLiteral hp hb⟩
  | bitToken hp hb => exact ⟨_, .bitToken hp hb⟩
  | stopTail hp ho he => exact ⟨_, .stopTail hp ho he⟩
  | takeControl hp ho hl => exact ⟨_, .takeControl hp ho hl⟩
  | takeLiteral hp ho => exact ⟨_, .takeLiteral hp ho⟩
  | emitLiteral hp hr => exact ⟨_, .emitLiteral hp hr⟩
  | stopOverrun hp ho he => exact ⟨_, .stopOverrun hp ho he⟩
  | takeTokenFirst hp ho hl => exact ⟨_, .takeTokenFirst hp ho hl⟩
  | takeTokenSecond hp ho ha hres => exact ⟨_, .takeTokenSecond hp ho ha hres⟩
  | copyLast hp hr hl => exact ⟨_, .copyLast hp hr hl⟩
  | copyMore hp hr hl => exact ⟨_, .copyMore hp hr hl⟩

/-- A turn raises FWDREF (in BR1) or ZFILL (in COPY) at most, and clears neither. -/
theorem State.Turn.flags {s t : State} (ht : s.Turn t) :
    (s.status.fwdref = true → t.status.fwdref = true) ∧ (s.status.zfill = true → t.status.zfill = true) ∧
    (t.status.fwdref = s.status.fwdref ∨ t.status.zfill = s.status.zfill) := by
  cases ht with
  | takeTokenSecond => exact ⟨fun hf => by simp [Status.flagForward, hf], id, .inr rfl⟩
  | copyLast | copyMore => exact ⟨id, fun hz => by simp [Status.flagZeroFill, hz], .inl rfl⟩
  | wait | stopClean | goRefill | goUnit | bitLiteral | bitToken | stopTail | takeControl | takeLiteral | emitLiteral
  | stopOverrun | takeTokenFirst => exact ⟨id, id, .inl rfl⟩

/-- Settles O47: within a run BUSY is 1, so no START clears the flags. -/
theorem flagsAreSticky : Obligations.FlagsAreSticky := by
  intro s t h hrun hstep hreset
  obtain ⟨ms, ⟨hm, -⟩ | ⟨-, hc⟩⟩ := step_cases hstep
  · simp [hm] at hreset
  · cases hc with
    | turn ht => exact ht.flags
    | start hb => exact absurd (hb.symm.trans (h.status.busy.mpr hrun)) Bool.false_ne_true
    | srcLen | host => exact ⟨id, id, .inl rfl⟩

/-! ## The canonical dictionary (R26) -/

theorem Dict.get_cons_same (k : Nat) (v : Byte) (d : Dict) : Dict.get ((k, v) :: d) k = v := if_pos rfl

theorem Dict.get_cons_other {k slot : Nat} (h : k ≠ slot) (v : Byte) (d : Dict) :
    Dict.get ((k, v) :: d) slot = d.get slot := if_neg h

/-- The first slot listed does not read as an unlisted one does. -/
theorem Dict.get_first_ne {low k : Nat} {v : Byte} {d : Dict} (h : Dict.wfFrom low ((k, v) :: d) = true) :
    k < Config.window ∧ Dict.get ((k, v) :: d) k ≠ Dict.unlisted := by
  obtain ⟨-, hk, hv, -⟩ := Dict.wfFrom_cons.mp h
  exact ⟨hk, by rwa [Dict.get_cons_same]⟩

/-- A dictionary that reads like `d'` lists no slot below those of `d'`. -/
theorem Dict.first_le {low k k' : Nat} {v : Byte} {d d' : Dict} (h : Dict.wfFrom low ((k, v) :: d) = true)
    (h' : Dict.wfFrom k' d' = true)
    (heq : ∀ slot, slot < Config.window → Dict.get ((k, v) :: d) slot = d'.get slot) : k' ≤ k := by
  obtain ⟨hk, hne⟩ := Dict.get_first_ne h
  by_contra hlt
  exact hne ((heq k hk).trans (Dict.get_below h' (Nat.lt_of_not_le hlt)))

theorem Dict.wfFrom_ext {low : Nat} {d₁ d₂ : Dict} (h₁ : Dict.wfFrom low d₁ = true) (h₂ : Dict.wfFrom low d₂ = true)
    (heq : ∀ slot, slot < Config.window → d₁.get slot = d₂.get slot) : d₁ = d₂ := by
  induction d₁ generalizing low d₂ with
  | nil =>
    cases d₂ with
    | nil => rfl
    | cons c₂ d₂ =>
      obtain ⟨hk, hne⟩ := Dict.get_first_ne h₂
      exact absurd (heq _ hk).symm hne
  | cons c₁ d₁ ih =>
    obtain ⟨k, v₁⟩ := c₁
    cases d₂ with
    | nil =>
      obtain ⟨hk, hne⟩ := Dict.get_first_ne h₁
      exact absurd (heq _ hk) hne
    | cons c₂ d₂ =>
      obtain ⟨k₂, v₂⟩ := c₂
      obtain ⟨-, hk, hv₁, ht₁⟩ := Dict.wfFrom_cons.mp h₁
      obtain ⟨-, hk₂, hv₂, ht₂⟩ := Dict.wfFrom_cons.mp h₂
      have hle : k₂ ≤ k := Dict.first_le h₁ (Dict.wfFrom_cons.mpr ⟨le_rfl, hk₂, hv₂, ht₂⟩) heq
      have hge : k ≤ k₂ :=
        Dict.first_le h₂ (Dict.wfFrom_cons.mpr ⟨le_rfl, hk, hv₁, ht₁⟩) fun slot hs => (heq slot hs).symm
      obtain rfl := Nat.le_antisymm hge hle
      have hv : v₁ = v₂ := by simpa only [Dict.get_cons_same] using heq k hk
      have htail : d₁ = d₂ := ih ht₁ ht₂ fun slot hs => by
        rcases Nat.lt_or_ge k slot with hlt | hle
        · simpa only [Dict.get_cons_other hlt.ne] using heq slot hs
        · rw [Dict.get_below ht₁ (Nat.lt_succ_of_le hle), Dict.get_below ht₂ (Nat.lt_succ_of_le hle)]
      rw [hv, htail]

/-- Settles O50, by `Dict.wfFrom_ext` from slot 0; a read names each slot of the window. -/
theorem canonicalDictionariesEqual : Obligations.CanonicalDictionariesEqual := by
  intro d₁ d₂ h₁ h₂ heq
  refine Dict.wfFrom_ext h₁ h₂ fun slot hs => ?_
  have := heq slot
  rwa [Dict.read, Dict.read, slotOf_of_lt hs] at this

/-! ## The STATE register (R32) -/

theorem Phase.code_toNat (p : Phase) :
    p.code.toNat = [Phase.idle, .top, .refill, .unit, .lit, .litOut, .br0, .br1, .copy, .done].idxOf p := by
  cases p <;> decide

/-! The fields of the word stand one above the other: a field above WIN_CTR is the same field of the word without
it, and so on up. -/

theorem State.stateWord_winCtr (s : State) : s.stateWord.extractLsb' 0 12 = s.winCtr :=
  BitVec.extractLsb'_append_eq_right

theorem State.stateWord_ctrlCnt (s : State) : s.stateWord.extractLsb' 12 4 = s.ctrlCnt :=
  calc s.stateWord.extractLsb' 12 4
      _ = ((0 : BitVec 4) ++ s.phase.code ++ s.ctrlByte ++ s.ctrlCnt).extractLsb' 0 4 :=
        BitVec.extractLsb'_append_eq_of_le (by decide)
      _ = s.ctrlCnt := BitVec.extractLsb'_append_eq_right

/-- What stands above CTRL_CNT. -/
theorem State.stateWord_high (s : State) (i len : Nat) :
    s.stateWord.extractLsb' (i + 16) len = ((0 : BitVec 4) ++ s.phase.code ++ s.ctrlByte).extractLsb' i len :=
  calc s.stateWord.extractLsb' (i + 16) len
      _ = ((0 : BitVec 4) ++ s.phase.code ++ s.ctrlByte ++ s.ctrlCnt).extractLsb' (i + 4) len :=
        BitVec.extractLsb'_append_eq_of_le (by omega)
      _ = ((0 : BitVec 4) ++ s.phase.code ++ s.ctrlByte).extractLsb' i len :=
        BitVec.extractLsb'_append_eq_of_le (by omega)

theorem State.stateWord_ctrlByte (s : State) : s.stateWord.extractLsb' 16 8 = s.ctrlByte :=
  (s.stateWord_high 0 8).trans BitVec.extractLsb'_append_eq_right

theorem State.stateWord_phase (s : State) : s.stateWord.extractLsb' 24 4 = s.phase.code :=
  (s.stateWord_high 8 4).trans
    ((BitVec.extractLsb'_append_eq_of_le (by decide)).trans BitVec.extractLsb'_append_eq_right)

theorem State.stateWord_reserved (s : State) : s.stateWord.extractLsb' 28 4 = 0 :=
  (s.stateWord_high 12 4).trans
    ((BitVec.extractLsb'_append_eq_of_le (by decide)).trans BitVec.extractLsb'_append_eq_left)

/-- Settles O12, a lemma per field; offset 0x14 is STATE, which `writeReg` leaves alone. -/
theorem stateWordFields : Obligations.StateWordFields := by
  intro s
  rw [show s.readReg (regAt 0x14) = s.stateWord from rfl]
  exact ⟨s.stateWord_winCtr, s.stateWord_ctrlCnt, s.stateWord_ctrlByte,
    (congrArg BitVec.toNat s.stateWord_phase).trans s.phase.code_toNat, s.stateWord_reserved, fun _ => rfl⟩

/-! ## Reset (R35) -/

/-- Settles O1: the registers by their reset values; IDLE waits, and START overwrites the dictionary. -/
theorem resetRegisterValues : Obligations.ResetRegisterValues := by
  refine ⟨rfl, rfl, rfl, rfl, rfl, rfl, rfl, rfl, rfl, rfl, rfl, rfl, rfl, rfl, rfl, rfl, rfl, rfl, fun dict => ?_⟩
  exact ⟨State.decoderStep_of_wait (.inl rfl), rfl⟩

end Sys2Proof.Machine
end

section
/-!
SUPPORT. The memory chapter's statement about the register window (spec/20_memory.md R44): what a register access answers,
defined or not.
-/

namespace Sys2Proof.Machine

/-! ## Register accesses (R44) -/

theorem accessDefined_iff {offset : BitVec 8} {width : Nat} :
    accessDefined offset width = true ↔ width = 32 ∧ offset.toNat % 4 = 0 := by
  simp [accessDefined]

section
variable {s : State} {offset : BitVec 8} {width : Nat}

theorem State.move_regWrite_of_defined (h : accessDefined offset width = true) (x : Word) :
    s.move (.regWrite offset width x) = .next (s.writeReg x (regAt offset)) := if_pos h

theorem State.move_regRead_of_defined (h : accessDefined offset width = true) :
    s.move (.regRead offset width) = .next { s with got := s.got ++ [s.readReg (regAt offset)] } := if_pos h

theorem State.move_regWrite_of_undefined (h : ¬accessDefined offset width = true) (x : Word) :
    s.move (.regWrite offset width x) = .refused (.undefinedAccess offset width) := if_neg h

theorem State.move_regRead_of_undefined (h : ¬accessDefined offset width = true) :
    s.move (.regRead offset width) = .refused (.undefinedAccess offset width) := if_neg h

end

/-- Settles O13: the two clauses are the two branches of `accessDefined`, which is R44's condition. -/
theorem undefinedAccessRefused : Obligations.UndefinedAccessRefused := by
  intro s offset width x
  rw [← accessDefined_iff]
  constructor
  · intro hdef
    exact ⟨⟨_, State.move_regWrite_of_defined hdef x⟩, _, State.move_regRead_of_defined hdef⟩
  · intro hundef
    exact ⟨State.move_regWrite_of_undefined hundef x, State.move_regRead_of_undefined hundef⟩

end Sys2Proof.Machine
end


section
/-!
SUPPORT. The encoding chapter's statements (spec/30_encoding.md R56 to R68): the fields of a token, the decoder and the
encoder as each other's inverse, the opcode map, the stream that UNITS writes, and the distance BREFD names.
-/

namespace Sys2Proof

/-! ## The fields of a token (R62, R67) -/

/-- Settles O29: an append is a sum weighted by its lower part's width, and an extraction a quotient's remainder. -/
theorem tokenFieldAssembly : Obligations.TokenFieldAssembly := by
  intro b0 b1
  have hlcode : (tokenLcode b1).toNat = b1.toNat % 16 := by simp [tokenLcode]
  have hoffset : (tokenOffset b0 b1).toNat = b1.toNat / 16 * 256 + b0.toNat := by
    have := b1.isLt
    rw [tokenOffset, BitVec.toNat_append, ← Nat.shiftLeft_add_eq_or_of_lt b0.isLt, BitVec.extractLsb'_toNat]
    simp only [Nat.shiftLeft_eq, Nat.shiftRight_eq_div_pow]
    omega
  exact ⟨hoffset, hlcode, congrArg (· + Config.minMatch) hlcode⟩

@[simp] theorem tokenOffset_token (offset : WinPos) (length : Nat) :
    tokenOffset (tokenFirst offset) (tokenSecond offset length) = offset :=
  calc tokenOffset (tokenFirst offset) (tokenSecond offset length)
      _ = offset.extractLsb' 8 4 ++ offset.extractLsb' 0 8 := by
        rw [tokenOffset, tokenSecond, BitVec.extractLsb'_append_eq_left, tokenFirst]
      _ = offset.extractLsb' 0 12 := BitVec.extractLsb'_append_extractLsb'_eq_extractLsb' rfl
      _ = offset := BitVec.extractLsb'_eq_self

/-- The code of a length from 3 to 18 has four bits, so none is lost (R63). -/
theorem tokenLength_tokenSecond (offset : WinPos) {length : Nat} (hmin : Config.minMatch ≤ length)
    (hmax : length ≤ Config.maxMatch) : tokenLength (tokenSecond offset length) = length := by
  simp only [Config.minMatch, Config.maxMatch] at hmin hmax
  rw [tokenLength, tokenLcode, tokenSecond, BitVec.extractLsb'_append_eq_right]
  simp only [Config.minMatch, BitVec.toNat_ofNat]
  omega

theorem Instr.wellFormed_bref {offset : WinPos} {length : Nat} :
    (Instr.bref offset length).wellFormed = true ↔ Config.minMatch ≤ length ∧ length ≤ Config.maxMatch := by
  simp [Instr.wellFormed, Instr.longEnough, Instr.shortEnough]

/-! ## Decoding and encoding (R58 to R63) -/

/-- Settles O30: CTRL and LIT are their one byte; of a token the offset and the length come back field by field. -/
theorem decodeOfEncode : Obligations.DecodeOfEncode := by
  intro i rest hwf
  cases i with
  | ctrl s => exact decodeAt_control s rest
  | lit d => exact decodeAt_literal d rest
  | bref offset length =>
    obtain ⟨hmin, hmax⟩ := Instr.wellFormed_bref.mp hwf
    have h := decodeAt_token (tokenFirst offset) (tokenSecond offset length) rest
    rwa [tokenOffset_token, tokenLength_tokenSecond offset hmin hmax] at h

/-- Settles O31, by the decoder's three successful cases; a token's length is the one its four bits can name. -/
theorem encodeOfDecode : Obligations.EncodeOfDecode := by
  intro p bytes rest i
  fun_cases decodeAt p bytes with
  | case1 s _ => rintro ⟨⟩; exact ⟨rfl, rfl, rfl⟩
  | case2 d _ => rintro ⟨⟩; exact ⟨rfl, rfl, rfl⟩
  | case3 b0 b1 _ =>
    rintro ⟨⟩
    exact ⟨Instr.wellFormed_bref.mpr (tokenLength_bounds b1), rfl, by simp [encode]⟩
  | case4 | case5 | case6 => rintro ⟨⟩

/-! ## The length of a unit (R61) -/

/-- The number of bytes that the unit at a position has. -/
def Position.size : Position → Nat
  | .control => 1
  | .unit c => if c then 1 else 2

theorem encode_length (i : Instr) : (encode i).length = i.position.size := by
  cases i <;> rfl

theorem Instr.isLit_of_position {i : Instr} {c : Bool} (h : i.position = .unit c) : i.isLit = c := by
  cases i <;> cases h <;> rfl

theorem decodeAt_isLit {c : Bool} {bytes rest : List Byte} {i : Instr} (h : decodeAt (.unit c) bytes = .ok (i, rest)) :
    i.isLit = c := by
  obtain ⟨-, hpos, -⟩ := encodeOfDecode _ bytes rest i h
  exact Instr.isLit_of_position hpos

theorem decodeAt_length {p : Position} {bytes rest : List Byte} {i : Instr} (h : decodeAt p bytes = .ok (i, rest)) :
    bytes.length = rest.length + p.size := by
  obtain ⟨-, hpos, hbytes⟩ := encodeOfDecode p bytes rest i h
  rw [← hbytes, List.length_append, encode_length, hpos, Nat.add_comm]

/-- Stream values are never illegal: only missing bytes are an error (R65). -/
theorem decodeAt_error_iff {p : Position} {bytes : List Byte} :
    (∃ e, decodeAt p bytes = .error e) ↔ bytes.length < p.size := by
  fun_cases decodeAt p bytes with
  | case1 | case2 | case3 | case4 | case5 => simp [Position.size]
  | case6 c => cases c <;> simp [Position.size]

/-- Settles O32: each clause is the length of a decoded unit or the condition for an error, at one position. -/
theorem controlBitDecidesLength : Obligations.ControlBitDecidesLength := by
  intro bytes
  have hnil : bytes.length < 1 ↔ bytes = [] := by simp
  exact ⟨fun _ _ h => ⟨decodeAt_isLit h, decodeAt_length h⟩, fun _ _ h => ⟨decodeAt_isLit h, decodeAt_length h⟩,
    fun _ _ h => decodeAt_length h, decodeAt_error_iff.trans hnil, decodeAt_error_iff, decodeAt_error_iff.trans hnil⟩

/-! ## The opcode map (R64) -/

theorem decodeWord_of_literal {U : BitVec 17} (h : U[16] = true) : decodeWord U = .ok (.lit (U.extractLsb' 0 8)) := by
  rw [decodeWord, h]
  rfl

theorem decodeWord_of_token {U : BitVec 17} (h : U[16] = false) :
    decodeWord U =
      .ok (.bref (tokenOffset (U.extractLsb' 0 8) (U.extractLsb' 8 8)) (tokenLength (U.extractLsb' 8 8))) := by
  rw [decodeWord, h]
  rfl

/-- R64's mask test reads bit 16. -/
theorem decodeWord_mask (U : BitVec 17) : U &&& (0x10000 : BitVec 17) = if U[16] then (0x10000 : BitVec 17) else 0 :=
  BitVec.and_twoPow U 16

/-- A decode word of 1, 8 and 8 bits has them as its fields U[16], U[15:8] and U[7:0]. -/
theorem decodeWord_fields {sel : BitVec 1} {b1 b0 : Byte} {U : BitVec 17} (h : sel ++ b1 ++ b0 = U) :
    U[16] = sel[0] ∧ U.extractLsb' 8 8 = b1 ∧ U.extractLsb' 0 8 = b0 := by
  subst h
  refine ⟨?_, ?_, BitVec.extractLsb'_append_eq_right⟩
  · rw [← BitVec.getLsbD_eq_getElem, BitVec.getLsbD_append, BitVec.getLsbD_append]
    rfl
  · rw [BitVec.extractLsb'_append_eq_of_le (by decide), BitVec.extractLsb'_append_eq_right]

/-- A decode word has the instruction's control bit in U[16] and its bytes from U[7:0] up. -/
theorem encodeWord_fields {i : Instr} {U : BitVec 17} (h : encodeWord i = some U) :
    i.position = .unit U[16] ∧ ∃ rest, [U.extractLsb' 0 8, U.extractLsb' 8 8] = encode i ++ rest := by
  cases i with
  | ctrl s => cases h
  | lit d =>
    obtain ⟨hbit, hb1, hb0⟩ := decodeWord_fields (Option.some.inj h)
    rw [hbit, hb1, hb0]
    exact ⟨rfl, [0], rfl⟩
  | bref offset length =>
    obtain ⟨hbit, hb1, hb0⟩ := decodeWord_fields (Option.some.inj h)
    rw [hbit, hb1, hb0]
    exact ⟨rfl, [], rfl⟩

/-- Settles O33: the two rows by bit 16, neither of them CTRL's; the round trip is that of the bytes. -/
theorem decodeWordRows : Obligations.DecodeWordRows := by
  refine ⟨fun U => ?_, fun i U hwf hU => ?_⟩
  · rw [decodeWord_mask]
    cases hbit : U[16] with
    | true => simp [decodeWord_of_literal hbit]
    | false => simp [decodeWord_of_token hbit]
  · obtain ⟨hpos, rest, hbytes⟩ := encodeWord_fields hU
    rw [decodeWord, hbytes, ← hpos, decodeOfEncode i rest hwf]
    rfl

/-- Settles O35, by running the decoder on each word. -/
theorem writtenOutWordsDecode : Obligations.WrittenOutWordsDecode := ⟨rfl, rfl, rfl, rfl, rfl, rfl, rfl⟩

/-! ## The stream that UNITS writes (R56, R68) -/

/-- The first `n` control bits that UNITS gives to the units `us`: 1 for a LIT, and 0 for a BREF and where no unit is
left (R68). -/
def selectBits (n : Nat) (us : List Instr) : List Bool :=
  (List.range n).map fun k => us[k]?.any Instr.isLit

theorem selectBits_succ (n : Nat) (u : Instr) (us : List Instr) :
    selectBits (n + 1) (u :: us) = u.isLit :: selectBits n us := by
  simp [selectBits, List.range_succ_eq_map, Function.comp_def]

theorem groupControl_getLsbD (us : List Instr) {k : Nat} (hk : k < 8) :
    (groupControl us).getLsbD k = us[k]?.any Instr.isLit := by
  induction us generalizing k with
  | nil => simp [groupControl]
  | cons u us ih =>
    rw [groupControl, BitVec.getLsbD_shiftConcat]
    cases k with
    | zero => simp
    | succ k => simp [hk, ih (Nat.lt_of_succ_lt hk)]

/-- The control byte of a group holds the control bits of the next eight units (R58, R68). -/
theorem controlBits_groupControl (us : List Instr) :
    controlBits (groupControl (us.take Config.unitsPerControl)) = selectBits Config.unitsPerControl us := by
  refine List.map_congr_left fun k hk => ?_
  have hlt : k < Config.unitsPerControl := List.mem_range.mp hk
  rw [groupControl_getLsbD _ hlt, List.getElem?_take_of_lt hlt]

/-- A unit of the grammar is what the decoder reads at its control bit (R56, R61). -/
theorem parseFrom_of_decodeAt {c : Bool} {bytes rest : List Byte} {i : Instr}
    (h : decodeAt (.unit c) bytes = .ok (i, rest)) (bits : List Bool) :
    parseFrom (c :: bits) bytes = (i :: (parseFrom bits rest).1, (parseFrom bits rest).2) := by
  match c, bytes, h with
  | true, d :: _, rfl => rw [parseFrom]
  | false, b0 :: b1 :: _, rfl => rw [parseFrom]

theorem parseFrom_control {s : Byte} {bytes : List Byte} (h : bytes ≠ []) :
    parseFrom [] (s :: bytes) =
      (.ctrl s :: (parseFrom (controlBits s) bytes).1, (parseFrom (controlBits s) bytes).2) := by
  obtain ⟨b, rest, rfl⟩ := List.exists_cons_of_ne_nil h
  rw [parseFrom]

theorem Instr.position_of_ne_control {i : Instr} (h : i.position ≠ .control) : i.position = .unit i.isLit := by
  cases i with
  | ctrl s => exact absurd rfl h
  | lit d => rfl
  | bref offset length => rfl

theorem encode_ne_nil (i : Instr) : encode i ≠ [] := by
  cases i <;> exact List.cons_ne_nil _ _

/-- The grammar reads an encoded unit at its own control bit. -/
theorem parseFrom_encode {u : Instr} (hwf : u.wellFormed = true) (hu : u.position ≠ .control) (bits : List Bool)
    (rest : List Byte) :
    parseFrom (u.isLit :: bits) (encode u ++ rest) = (u :: (parseFrom bits rest).1, (parseFrom bits rest).2) := by
  apply parseFrom_of_decodeAt
  rw [← Instr.position_of_ne_control hu]
  exact decodeOfEncode u rest hwf

/-- In the middle of a group, with the control bits that its control byte has left, the grammar reads back what UNITS
writes from there on. -/
theorem parseFrom_unitsFrom {us : List Instr} (hus : ∀ u ∈ us, u.wellFormed = true ∧ u.position ≠ .control)
    (slots : Nat) :
    parseFrom (selectBits slots us) (assemble (unitsFrom slots us)) = (unitsFrom slots us, .clean) := by
  induction us generalizing slots with
  | nil => simp [unitsFrom, assemble, parseFrom]
  | cons u us ih =>
    obtain ⟨⟨hwf, hu⟩, hus⟩ := List.forall_mem_cons.mp hus
    have hunit (slots : Nat) :
        parseFrom (selectBits (slots + 1) (u :: us)) (encode u ++ assemble (unitsFrom slots us)) =
          (u :: unitsFrom slots us, .clean) := by
      rw [selectBits_succ, parseFrom_encode hwf hu, ih hus]
    cases slots with
    | zero =>
      have hgroup : parseFrom (controlBits (groupControl ((u :: us).take Config.unitsPerControl)))
          (encode u ++ assemble (unitsFrom 7 us)) = (u :: unitsFrom 7 us, .clean) := by
        rw [controlBits_groupControl]
        exact hunit 7
      have hne := List.append_ne_nil_of_left_ne_nil (encode_ne_nil u) (assemble (unitsFrom 7 us))
      exact (parseFrom_control hne).trans (by rw [hgroup]; rfl)
    | succ slots => exact hunit slots

/-- Settles O34: a stream begins where a group has no slot left, so its first byte is a control byte. -/
theorem assembledUnitsParseBack : Obligations.AssembledUnitsParseBack :=
  fun _ hus => parseFrom_unitsFrom hus 0

end Sys2Proof

namespace Sys2Proof.Machine

/-! ## The distance BREFD names (R68) -/

/-- The offset that BREFD writes is the distance's position modulo the window. -/
theorem brefd_offset {w dist length length' : Nat} {offset : WinPos} (h : brefd w dist length = .bref offset length') :
    (offset.toNat : Int) = ((w : Int) - dist) % Config.window := by
  cases h
  simp only [Config.window, BitVec.toNat_ofInt]
  omega

/-- From an origin that is a multiple of the window a token resolves to its offset, modulo the window (R82). -/
theorem resolve_mod_window {org : BitVec 32} (horg : org.toNat % Config.window = 0) (offset : WinPos) (w : BitVec 32) :
    resolve offset org w % Config.window = offset.toNat := by
  have := offset.isLt
  simp only [Config.window] at *
  rcases Nat.lt_or_ge (offset.toNat + org.toNat) w.toNat with hp | hp
  · rw [resolve_behind hp]
    omega
  · rw [resolve_corrected hp]
    omega

/-- Settles O36: the resolved position and `w - dist` agree modulo the window, and the resolved one lies from `w - 4096`
to `w + 17`. -/
theorem brefdReadsAtDistance : Obligations.BrefdReadsAtDistance := by
  intro s dist length offset hinv hp hdist hdist' _ hlen hbrefd
  have hoffset := brefd_offset hbrefd
  have hmod := resolve_mod_window (winAdvance_origin hinv.window.origin s.winCtr length) offset s.dstLen
  obtain ⟨-, hhigh, hlow⟩ := resolve_bounds (offset := offset) hlen (hinv.advanced_sum (by simp [hp]) hlen)
  simp only [Config.window] at *
  omega

end Sys2Proof.Machine
end

section
/-!
SUPPORT. The statements of spec/40_control_byte.md: the refill and its frame (R69), the packed control word (R70) and the
control-bit extraction (R71).
-/

namespace Sys2Proof.Machine

/-! ## The control-bit extraction (R71) -/

theorem State.decoderStep_unit {s : State} (hp : s.phase = .unit) : s.decoderStep = .next s.extractBit := by
  rw [State.decoderStep, hp]

/-- The extraction as arithmetic on CTRL_BYTE: its remainder and its quotient by 2. -/
theorem State.extractBit_eq (s : State) :
    s.extractBit = { s with
      ctrlByte := BitVec.ofNat 8 (s.ctrlByte.toNat / 2), ctrlCnt := s.ctrlCnt - 1
      phase := if s.ctrlByte.toNat % 2 = 1 then .lit else .br0 } := by
  have hshift : s.ctrlByte >>> 1 = BitVec.ofNat 8 (s.ctrlByte.toNat / 2) := by bv_omega
  have hbit : s.ctrlByte[0] = decide (s.ctrlByte.toNat % 2 = 1) := by
    rw [BitVec.getElem_eq_testBit_toNat, Nat.testBit_zero]
  simp only [State.extractBit, hshift, hbit, decide_eq_true_eq]

/-- Settles O16: in UNIT the invariant has a control bit left. -/
theorem controlBitExtraction : Obligations.ControlBitExtraction := by
  intro s hp
  rw [State.decoderStep_unit hp, State.extractBit_eq]
  exact ⟨rfl, fun h => ⟨h.source.unitHasBit hp, h.source.count⟩⟩

/-! ## The packed control word (R70) -/

theorem State.extractBit_iterate_ctrlByte (s : State) (j : Nat) :
    (State.extractBit^[j] s).ctrlByte = s.ctrlByte >>> j := by
  induction j with
  | zero => exact (BitVec.ushiftRight_zero _).symm
  | succ j ih =>
    rw [Function.iterate_succ_apply', BitVec.shiftRight_add, ← ih]
    rfl

/-- CTRL_CNT counts the extractions down, as long as it has bits to count. -/
theorem State.extractBit_iterate_ctrlCnt (s : State) {j : Nat} (hj : j ≤ s.ctrlCnt.toNat) :
    (State.extractBit^[j] s).ctrlCnt.toNat = s.ctrlCnt.toNat - j := by
  induction j with
  | zero => rfl
  | succ j ih =>
    have hprev := ih (Nat.le_of_succ_le hj)
    rw [Function.iterate_succ_apply']
    change ((State.extractBit^[j] s).ctrlCnt - 1).toNat = _
    bv_omega

/-- Bit k of the source's packed word: the control byte's below bit 8, and a 1 from there on. -/
theorem packedWord_getLsbD (b : Byte) (k : Nat) :
    (0xFF00#16 ||| b.setWidth 16).getLsbD k = if k < 8 then b.getLsbD k else decide (k < 16) := by
  have happend : 0xFF00#16 ||| b.setWidth 16 = BitVec.allOnes 8 ++ b := rfl
  have htop : k - 8 < 8 ↔ k < 16 := by omega
  simp only [happend, BitVec.getLsbD_append, BitVec.getLsbD_allOnes, htop]

/-- Settles O17: after j extractions bit i of either form is bit i + j of the refilled one, and bit 8 of the packed word
is the first of its 1s above the control byte. -/
theorem packedControlWordAgrees : Obligations.PackedControlWordAgrees := by
  intro s b j hbyte hcnt hj
  have hblock : (State.extractBit^[j] s).ctrlByte = b >>> j := by rw [s.extractBit_iterate_ctrlByte, hbyte]
  have hleft : (State.extractBit^[j] s).ctrlCnt.toNat = 8 - j := by
    rw [s.extractBit_iterate_ctrlCnt (by rw [hcnt]; exact hj), hcnt]
    rfl
  have hsource (i : Nat) : ((0xFF00#16 ||| b.setWidth 16) >>> j).getLsbD i =
      if j + i < 8 then b.getLsbD (j + i) else decide (j + i < 16) := by
    rw [BitVec.getLsbD_ushiftRight, packedWord_getLsbD]
  have hmark : ((0xFF00#16 ||| b.setWidth 16) >>> j).getLsbD 8 = decide (j ≤ 7) := by
    rw [hsource, if_neg (by omega), decide_eq_decide]
    omega
  refine ⟨hblock, hleft, fun hj8 => ⟨?_, ?_⟩, ?_, ?_⟩
  · rw [hsource, Nat.add_zero, if_pos hj8]
  · rw [hblock, BitVec.getLsbD_ushiftRight, Nat.add_zero]
  · rw [hmark, decide_eq_true_eq]
  · rw [hmark, decide_eq_false_iff_not]
    bv_omega

/-! ## CTRL (R69) -/

/-- Settles O18: CTRL's step with its transfer. -/
theorem controlByteCompletes : Obligations.ControlByteCompletes := fun _ b _ hp ho =>
  execCtrl_next.mpr ⟨hp, (State.refill_of_cons ho b).symm⟩

theorem State.refill_of_nil {s : State} (h : s.offered = []) (b : Byte) : s.refill b = s := by
  rw [State.refill, State.inTake_of_nil h, State.after_none]

/-- Settles O26: where no byte is offered CTRL holds; else it stops TAIL or goes on to UNIT, and STATUS changes only at
the stop. -/
theorem controlByteFrame : Obligations.ControlByteFrame := by
  intro b s t hexec
  obtain ⟨-, rfl⟩ := execCtrl_next.mp hexec
  cases ho : s.offered with
  | nil => simp [State.refill_of_nil ho]
  | cons x rest =>
    rw [State.refill_of_cons ho]
    dsimp only
    split
    case isTrue => simp
    case isFalse => simp

end Sys2Proof.Machine
end

section
/-!
SUPPORT. The statements of spec/41_literal.md: the literal's input half (R75), its output half with the window advance
by 1 (R76), and what the two leave unchanged.
-/

namespace Sys2Proof.Machine

/-! ## The input half (R75) -/

/-- Settles O19: in phase LIT exec is the input half, which makes its transfer. -/
theorem literalInputCompletes : Obligations.LiteralInputCompletes := fun _ d _ hp ho =>
  execLit_next.mpr (.inl ⟨hp, (State.literalIn_of_cons ho d).symm⟩)

theorem State.literalIn_of_nil {s : State} (h : s.offered = []) (d : Byte) : s.literalIn d = s := by
  rw [State.literalIn, State.inTake_of_nil h, State.after_none]

/-! ## The output half and the window advance (R76) -/

/-- A literal's window advance reaches 4096 only exactly, so that the counter is then 0. -/
theorem winAdvance_one (ctr : WinPos) (origin : BitVec 32) :
    winAdvance ctr origin 1 =
      (if 4096 ≤ ctr.toNat + 1 then 0 else ctr + 1, if 4096 ≤ ctr.toNat + 1 then origin + 4096 else origin) := by
  split
  case isTrue hwrap =>
    have hexact : ctr.toNat + 1 - 4096 = 0 := by have := ctr.isLt; omega
    rw [winAdvance_of_wrap origin hwrap, hexact]
    rfl
  case isFalse hstay =>
    have hsucc : BitVec.ofNat 12 (ctr.toNat + 1) = ctr + 1 := by bv_omega
    rw [winAdvance_of_stay origin (Nat.lt_of_not_le hstay), hsucc]

theorem execLit_litOut {s : State} (hp : s.phase = .litOut) (d : Byte) : exec (.lit d) s = .next s.literalOut :=
  execLit_next.mpr (.inr ⟨hp, rfl⟩)

theorem State.turn_literalOut {s : State} (hp : s.phase = .litOut) (hr : s.outReady = true) : s.Turn s.literalOut := by
  rw [State.literalOut_of_ready hr]
  exact .emitLiteral hp hr

/-- Settles O20: the emitted byte with the window advance by 1, a turn that keeps the window's invariant and ends outside
COPY; without the consumer the output half holds. -/
theorem literalOutputCompletes : Obligations.LiteralOutputCompletes := by
  intro s d hp
  rw [execLit_litOut hp]
  constructor
  · intro hr
    have hnext := State.literalOut_of_ready hr
    refine ⟨s.literalOut, rfl, by rw [hnext, winAdvance_one], fun hinv => ?_⟩
    have hphase : s.literalOut.phase ≠ .copy := by simp [hnext]
    exact (((State.turn_literalOut hp hr).windowAgrees hinv).outside_copy hphase).1
  · intro hr
    rw [State.literalOut_of_not_ready hr]

/-! ## The frame (R75, R76) -/

/-- Settles O27: either half holds where its transfer is not offered; else it changes only what it writes, and the
output half's write is at DST_LEN. -/
theorem literalFrame : Obligations.LiteralFrame := by
  intro d s t hexec
  rcases execLit_next.mp hexec with ⟨hp, rfl⟩ | ⟨hp, rfl⟩
  · cases ho : s.offered with
    | nil => simp [State.literalIn_of_nil ho, hp]
    | cons x rest => simp [State.literalIn_of_cons ho, hp]
  · by_cases hr : s.outReady = true
    · have hslot (k : Nat) (hk : slotOf k ≠ slotOf s.dstLen.toNat) :
          (s.dict.write s.dstLen.toNat s.litData).read k = s.dict.read k := Dict.read_write_other _ hk _
      simpa [State.literalOut_of_ready hr, hp] using hslot
    · simp [State.literalOut_of_not_ready (Bool.eq_false_of_not_eq_true hr), hp]

end Sys2Proof.Machine
end

section
/-!
SUPPORT. The statements of spec/42_back_reference.md about single steps: the token's bytes (R79, R80), one byte of the
copy (R84), what they leave unchanged, and the arithmetic of the window and the resolution (R81, R82, R89).
-/

namespace Sys2Proof.Machine

variable {s : State}

/-! ## The window advance and the resolution (R81, R82) -/

theorem winAdvance_snd_of_wrap {ctr : WinPos} {n : Nat} (origin : BitVec 32) (h : 4096 ≤ ctr.toNat + n) :
    (winAdvance ctr origin n).2 = origin + 4096#32 := by rw [winAdvance_of_wrap origin h]

theorem winAdvance_snd_of_stay {ctr : WinPos} {n : Nat} (origin : BitVec 32) (h : ctr.toNat + n < 4096) :
    (winAdvance ctr origin n).2 = origin := by rw [winAdvance_of_stay origin h]

/-- Settles O24: a counter below 4096 plus at most 18 stays below 4096 or lies in the next lap. -/
theorem windowAdvanceRule : Obligations.WindowAdvanceRule := by
  intro ctr origin n _ hmax
  have hctr := ctr.isLt
  refine ⟨fun hwrap => ?_, fun hstay => ?_, by omega⟩
  · rw [winAdvance_of_wrap origin hwrap]
    exact ⟨by rw [BitVec.toNat_ofNat, Nat.mod_eq_of_lt (by omega)], rfl⟩
  · rw [winAdvance_of_stay origin hstay]
    exact ⟨by rw [BitVec.toNat_ofNat, Nat.mod_eq_of_lt hstay], rfl⟩

/-- Settles O25: the resolution's two cases, and its bounds where the window is advanced by the token's length. -/
theorem resolveRule : Obligations.ResolveRule := by
  refine ⟨fun offset org2 w => ?_, fun s offset length h hp _ hmax => ?_⟩
  · split
    case isTrue hahead => exact resolve_corrected (by omega)
    case isFalse hbehind => exact resolve_behind (by omega)
  · obtain ⟨hlow, hhigh, -⟩ := resolve_bounds (offset := offset) hmax (h.advanced_sum (by simp [hp]) hmax)
    exact ⟨hlow, hhigh⟩

/-- Where the window wraps inside a token, the correction undoes the advance (R81, R82). -/
theorem State.Inv.resolve_of_wrap (h : s.Inv) (hp : s.phase ≠ .copy) (offset : WinPos) {length : Nat}
    (hwrap : 4096 ≤ s.winCtr.toNat + length) :
    resolve offset (winAdvance s.winCtr s.winOrigin length).2 s.dstLen = s.winOrigin.toNat + offset.toNat := by
  obtain ⟨hsum, -⟩ := h.window.outside_copy hp
  have hlt := h.dstLen_lt
  have hctr := s.winCtr.isLt
  have horg : (s.winOrigin + 4096#32).toNat = s.winOrigin.toNat + 4096 := BitVec.toNat_add_of_lt (by simp; omega)
  rw [winAdvance_snd_of_wrap _ hwrap, resolve_corrected (by omega), horg]
  omega

/-- Where it does not, an offset before WIN_CTR lies in the present lap and any other in the lap before (R81, R82). -/
theorem State.Inv.resolve_of_stay (h : s.Inv) (hp : s.phase ≠ .copy) (offset : WinPos) {length : Nat}
    (hstay : s.winCtr.toNat + length < 4096) :
    resolve offset (winAdvance s.winCtr s.winOrigin length).2 s.dstLen =
      if offset.toNat < s.winCtr.toNat then (s.winOrigin.toNat + offset.toNat : Int)
      else s.winOrigin.toNat + offset.toNat - 4096 := by
  obtain ⟨hsum, -⟩ := h.window.outside_copy hp
  rw [winAdvance_snd_of_stay _ hstay]
  split
  case isTrue hbefore => rw [resolve_behind (by omega), add_comm]
  case isFalse hfrom => rw [resolve_corrected (by omega), add_comm (s.winOrigin.toNat : Int)]

/-- A token is a forward reference exactly where the window wraps inside it and its offset is not below WIN_CTR
(R83). -/
theorem State.Inv.forward_iff (h : s.Inv) (hp : s.phase ≠ .copy) (offset : WinPos) (length : Nat) :
    (s.dstLen.toNat : Int) ≤ resolve offset (winAdvance s.winCtr s.winOrigin length).2 s.dstLen ↔
      4096 ≤ s.winCtr.toNat + length ∧ s.winCtr.toNat ≤ offset.toNat := by
  obtain ⟨hsum, -⟩ := h.window.outside_copy hp
  have hoff := offset.isLt
  by_cases hwrap : 4096 ≤ s.winCtr.toNat + length
  · rw [h.resolve_of_wrap hp offset hwrap]
    omega
  · rw [h.resolve_of_stay hp offset (by omega)]
    split <;> omega

/-- A token resolves to a negative position exactly in the first lap, where its offset is not behind the write position
(R89). -/
theorem State.Inv.negative_iff (h : s.Inv) (hp : s.phase ≠ .copy) (offset : WinPos) (length : Nat) :
    resolve offset (winAdvance s.winCtr s.winOrigin length).2 s.dstLen < 0 ↔
      s.winOrigin = 0 ∧ s.winCtr.toNat + length < 4096 ∧ s.dstLen.toNat ≤ offset.toNat := by
  obtain ⟨hsum, -⟩ := h.window.outside_copy hp
  have hlap := h.window.origin
  have hoff := offset.isLt
  have hzero : s.winOrigin = 0 ↔ s.winOrigin.toNat = 0 := BitVec.toNat_inj.symm
  rw [Config.window] at hlap
  rw [hzero]
  by_cases hwrap : 4096 ≤ s.winCtr.toNat + length
  · rw [h.resolve_of_wrap hp offset hwrap]
    omega
  · rw [h.resolve_of_stay hp offset (by omega)]
    split <;> omega

/-- Settles O56: some byte reads a negative position where the first one does, and then origin and counter say which lap
it is. -/
theorem zeroFillOnlyInFirstLap : Obligations.ZeroFillOnlyInFirstLap := by
  rintro s offset length p h hp hmin - rfl
  have hc : s.phase ≠ .copy := by simp [hp]
  obtain ⟨hsum, -⟩ := h.window.outside_copy hc
  have hneg := h.negative_iff hc offset length
  refine ⟨?_, fun hlt => ?_, fun hlap => ?_⟩
  · rw [← hneg]
    exact ⟨fun ⟨i, _, hi⟩ => by omega, fun hlt => ⟨0, by omega, by omega⟩⟩
  · obtain ⟨horg, hstay, hfrom⟩ := hneg.mp hlt
    have hw : s.dstLen.toNat = s.winCtr.toNat := by rw [← hsum, horg]; exact Nat.zero_add _
    have hpos : resolve offset (winAdvance s.winCtr s.winOrigin length).2 s.dstLen = (offset.toNat : Int) - 4096 := by
      rw [h.resolve_of_stay hc offset hstay, if_neg (by omega), horg]
      simp
    exact ⟨hpos, hw, fun i => by omega⟩
  · by_contra hlt
    obtain ⟨-, -, hfrom⟩ := hneg.mp (Int.not_le.mp hlt)
    have hoff := offset.isLt
    omega

/-! ## The steps of a token (R79, R80, R84) -/

theorem exec_bref_br1 (hp : s.phase = .br1) (offset : WinPos) (length : Nat) :
    exec (.bref offset length) s = .next (s.tokenResolve (tokenSecond offset length)) :=
  execBref_next.mpr (.inr (.inl ⟨hp, rfl⟩))

/-- Settles O21: BR0 makes its transfer and then its check; the invariant leaves it a byte to take. -/
theorem tokenFirstByteCompletes : Obligations.TokenFirstByteCompletes := by
  rintro s offset length b0 rest hp ho rfl
  refine ⟨?_, fun h => h.source.byteLeft (by simp [State.needsByte, hp])⟩
  have hcheck : s.srcLen.toNat < s.srcPos.toNat + 2 ↔ (s.srcLen.toNat : Int) - s.srcPos.toNat < 2 := by omega
  rw [exec_bref_br0 hp, State.tokenStart_of_cons ho]
  simp only [hcheck]
  rfl

/-- Settles O22: the two bytes decode to the token they were written for. -/
theorem tokenSecondByteCompletes : Obligations.TokenSecondByteCompletes := by
  rintro s offset length b1 rest hp ho hfirst rfl hmin hmax
  have hoffset : tokenOffset s.tokLo (tokenSecond offset length) = offset := by rw [← hfirst, tokenOffset_token]
  rw [exec_bref_br1 hp, State.tokenResolve_of_cons ho, hoffset, tokenLength_tokenSecond offset hmin hmax]
  rfl

/-- Settles O23: COPY's step with its transfer, and the hold without it. -/
theorem copyStepCompletes : Obligations.CopyStepCompletes := by
  intro s offset length hp
  rw [exec_bref_copy hp]
  refine ⟨?_, fun hr => by rw [State.copyStep_of_not_ready hr]⟩
  rintro hr v rfl
  rw [State.copyStep_of_ready hr]
  rfl

/-! ## The frame (R79, R80, R84) -/

theorem State.tokenStart_of_nil (h : s.offered = []) (b0 : Byte) : s.tokenStart b0 = s := by
  rw [State.tokenStart, State.inTake_of_nil h, State.after_none]

theorem State.tokenResolve_of_nil (h : s.offered = []) (b1 : Byte) : s.tokenResolve b1 = s := by
  rw [State.tokenResolve, State.inTake_of_nil h, State.after_none]

/-- Settles O28: each phase holds where its transfer is not offered; else it changes only what it writes, and COPY's
write is at DST_LEN. -/
theorem tokenFrame : Obligations.TokenFrame := by
  intro offset length s t hexec
  rcases execBref_next.mp hexec with ⟨hp, rfl⟩ | ⟨hp, rfl⟩ | ⟨hp, rfl⟩
  · cases ho : s.offered with
    | nil => simp [State.tokenStart_of_nil ho, hp]
    | cons x rest =>
      rw [State.tokenStart_of_cons ho]
      dsimp only
      split
      case isTrue => simp [hp]
      case isFalse => simp [hp]
  · cases ho : s.offered with
    | nil => simp [State.tokenResolve_of_nil ho, hp]
    | cons x rest => simp [State.tokenResolve_of_cons ho, hp, Status.flagForward]
  · by_cases hr : s.outReady = true
    · have hslot (k : Nat) (hk : slotOf k ≠ slotOf s.dstLen.toNat) :
          (s.dict.write s.dstLen.toNat s.copyByte).read k = s.dict.read k := Dict.read_write_other _ hk _
      simpa [State.copyStep_of_ready hr, hp, Status.flagZeroFill] using hslot
    · simp [State.copyStep_of_not_ready (Bool.eq_false_of_not_eq_true hr), hp]

end Sys2Proof.Machine
end

section
/-!
SUPPORT. The statements of spec/42_back_reference.md about a copy: which output byte each of its steps reads (R84, R86),
and what the whole copy (R86, R88), a forward reference (R83) and a token (R87, R99) emit.
-/

namespace Sys2Proof.Machine

variable {s t : State}

/-! ## The byte a copy reads (R84, R86) -/

/-- The output byte at a position, and 0x00 below position 0 (R84, R86). -/
def outputAt (out : List Byte) (q : Int) : Option Byte := if q < 0 then some 0 else out[q.toNat]?

/-- In a run the dictionary holds the output of the 4096 positions before DST_LEN, each at its slot (R27). -/
theorem State.Inv.outputAt_eq_dict (h : s.Inv) (hi : s.phase ≠ .idle) {q : Int} (hlt : q < s.dstLen.toNat)
    (hwin : s.dstLen.toNat ≤ q + Config.window) :
    outputAt s.output q = some (s.dict.get (q % Config.window).toNat) := by
  simp only [Config.window, Nat.cast_ofNat] at *
  by_cases hq : q < 0
  · have hslot : slotOf (q + 4096).toNat = (q % 4096).toNat := by simp only [slotOf, Config.window]; omega
    have hzero := h.output.unwritten hi (q + 4096).toNat (by simp only [Config.window]; omega) (by omega)
    rw [Dict.read, hslot] at hzero
    rw [outputAt, if_pos hq, hzero]
    rfl
  · have hslot : slotOf q.toNat = (q % 4096).toNat := by simp only [slotOf, Config.window]; omega
    have hread := h.output.content hi q.toNat (by omega) (by simp only [Config.window]; omega)
    rw [outputAt, if_neg hq, hread, Dict.read, hslot]

/-- In COPY the byte emitted is the dictionary's at COPY_SRC's slot, also where COPY_SRC is negative: that slot is not
written yet. -/
theorem State.Inv.copyByte_eq_dict (h : s.Inv) (hp : s.phase = .copy) : s.copyByte = s.dict.get s.copySlot := by
  have hin := h.window.inWindow hp
  by_cases hneg : s.copySrc.toInt < 0
  · have hdict := h.outputAt_eq_dict (by simp [hp]) (q := s.copySrc.toInt) (by omega) hin
    rw [outputAt, if_pos hneg] at hdict
    rw [State.copyByte, if_pos hneg]
    exact Option.some.inj hdict
  · have hslot : slotOf s.copySrc.toInt.toNat = s.copySlot := by
      simp only [slotOf, State.copySlot, Config.window]
      omega
    rw [State.copyByte, if_neg hneg, Dict.read, hslot]

/-! ## The resolved position -/

/-- COPY_SRC holds the resolved position of a run's token (R23, R82). -/
theorem State.Inv.toInt_resolved (h : s.Inv) (hp : s.phase = .br1) {b : Byte} {a : WinPos × BitVec 32} {p : Int}
    (ha : winAdvance s.winCtr s.winOrigin (tokenLength b) = a)
    (hres : resolve (tokenOffset s.tokLo b) a.2 s.dstLen = p) : (BitVec.ofInt 33 p).toInt = p := by
  obtain ⟨-, hmax⟩ := tokenLength_bounds b
  have hsum := h.advanced_sum (by simp [hp]) hmax
  obtain ⟨hlow, hhigh, -⟩ := resolve_bounds (offset := tokenOffset s.tokLo b) hmax hsum
  rw [ha, hres, Config.window] at hlow
  rw [ha, hres] at hhigh
  have hlt := h.dstLen_lt
  exact BitVec.toInt_ofInt_eq_self (by decide) (by omega) (by omega)

/-! ## A run of copied bytes (R86) -/

theorem State.runSteps_succ (h : step s = .next t) (k : Nat) : s.runSteps (k + 1) = t.runSteps k := by
  have hcore : Sys2Proof.core.step s = .next t := h
  simp only [State.runSteps, Host.Core.run, hcore]
  rfl

theorem State.Turn.runSteps (ht : s.Turn t) (hm : s.moves = []) (k : Nat) : s.runSteps (k + 1) = t.runSteps k :=
  State.runSteps_succ ((step_of_no_moves hm).trans ht.decoderStep_eq) k

/-- The output position whose byte a COPY step reads: COPY_SRC, or that of the same slot one lap before where COPY_SRC
is not behind the write position (R83, R86). -/
def State.copyFrom (s : State) : Int :=
  if s.copySrc.toInt < s.dstLen.toNat then s.copySrc.toInt else s.copySrc.toInt - Config.window

theorem State.copyFrom_of_behind (h : s.copySrc.toInt < s.dstLen.toNat) : s.copyFrom = s.copySrc.toInt := if_pos h

theorem State.copyFrom_of_ahead (h : s.dstLen.toNat ≤ s.copySrc.toInt) :
    s.copyFrom = s.copySrc.toInt - Config.window := if_neg (Int.not_lt.mpr h)

/-- It lies among the 4096 positions before the write position. -/
theorem State.Inv.copyFrom_bounds (h : s.Inv) (hp : s.phase = .copy) :
    s.copyFrom < s.dstLen.toNat ∧ s.dstLen.toNat ≤ s.copyFrom + Config.window := by
  have hin := h.window.inWindow hp
  have hhigh := h.window.srcHigh
  simp only [State.copyFrom, Config.window] at *
  split <;> omega

/-- A COPY step emits the output byte at that position (R84, R86). -/
theorem State.Inv.outputAt_copyFrom (h : s.Inv) (hp : s.phase = .copy) :
    outputAt s.output s.copyFrom = some s.copyByte := by
  obtain ⟨hlt, hwin⟩ := h.copyFrom_bounds hp
  have hslot : s.copyFrom % Config.window = s.copySrc.toInt % Config.window := by
    simp only [State.copyFrom, Config.window]
    split <;> omega
  rw [h.outputAt_eq_dict (by simp [hp]) hlt hwin, h.copyByte_eq_dict hp, hslot]
  rfl

/-- From `s` to `t` the last `n` bytes of a token's copy are emitted, each read from the output there is by then. -/
structure State.Copied (s t : State) (n : Nat) : Prop where
  phase : t.phase = .top
  inv : t.Inv
  offered : t.offered = s.offered
  srcPos : t.srcPos = s.srcPos
  fwdref : t.status.fwdref = s.status.fwdref
  output : s.output <+: t.output
  length : t.output.length = s.output.length + n
  reads : ∀ i, i < n → t.output[s.output.length + i]? = outputAt t.output (s.copyFrom + i)

theorem State.Inv.copied_nothing (h : s.Inv) (hp : s.phase = .top) : s.Copied s 0 :=
  ⟨hp, h, rfl, rfl, rfl, List.prefix_rfl, rfl, nofun⟩

/-- What is emitted already stands. -/
theorem outputAt_of_prefix {out out' : List Byte} (h : out <+: out') {q : Int} (hq : q < out.length) :
    outputAt out' q = outputAt out q := by
  obtain ⟨more, rfl⟩ := h
  simp only [outputAt]
  split
  · rfl
  · rw [List.getElem?_append_left (by omega)]

/-- A COPY step before the rest of the copy. -/
theorem State.Inv.copied_step (h : s.Inv) (hp : s.phase = .copy) (hr : s.outReady = true) {n : Nat}
    (hc : s.copyStep.Copied t n) : s.Copied t (n + 1) := by
  have hstep := State.copyStep_emitsOutput hp hr
  have hfwd : s.copyStep.status.fwdref = s.status.fwdref := by rw [State.copyStep_of_ready hr]; rfl
  have hfrom : s.copyStep.copyFrom = s.copyFrom + 1 := by
    rw [State.copyStep_of_ready hr]
    simp only [State.copyFrom, h.copySrc_succ, h.dstLen_succ]
    split <;> split <;> omega
  have hlen : s.copyStep.output.length = s.output.length + 1 := by rw [hstep.output, List.length_append]; rfl
  have hpre : s.output ++ [s.copyByte] <+: t.output := hstep.output ▸ hc.output
  have hout : s.output <+: t.output := (List.prefix_append _ _).trans hpre
  refine ⟨hc.phase, hc.inv, hc.offered.trans hstep.offered, hc.srcPos.trans hstep.srcPos, hc.fwdref.trans hfwd, hout,
    by rw [hc.length, hlen]; omega, fun i hi => ?_⟩
  cases i with
  | zero =>
    obtain ⟨hlt, -⟩ := h.copyFrom_bounds hp
    have hread : outputAt t.output s.copyFrom = some s.copyByte := by
      rw [outputAt_of_prefix hout (by rw [h.output.emitted]; exact hlt), h.outputAt_copyFrom hp]
    obtain ⟨more, hmore⟩ := hpre
    rw [Nat.cast_zero, add_zero, add_zero, hread, ← hmore, List.append_assoc, List.singleton_append,
      List.getElem?_append_right le_rfl, Nat.sub_self, List.getElem?_cons_zero]
  | succ i =>
    have hread := hc.reads i (by omega)
    rw [hlen, hfrom] at hread
    rw [show s.output.length + (i + 1) = s.output.length + 1 + i by omega, hread]
    congr 1
    push_cast
    omega

/-- Where the consumer accepts, a copy runs to its end, a byte each step (R86, R99). -/
theorem State.Inv.exists_copied (h : s.Inv) (hm : s.moves = []) (hr : s.outReady = true)
    (hp : s.phase = .copy ∨ s.phase = .top) {n : Nat} (hn : s.copyRem.toNat = n) :
    ∃ t, s.runSteps n = .next t ∧ s.Copied t n := by
  induction n generalizing s with
  | zero =>
    have htop : s.phase = .top := hp.resolve_left fun hc => h.window.copying.mp hc (BitVec.eq_of_toNat_eq hn)
    exact ⟨s, rfl, h.copied_nothing htop⟩
  | succ n ih =>
    have hc : s.phase = .copy := h.window.copying.mpr fun hz => by simp [hz] at hn
    have hturn := State.turn_copyStep hc hr
    have hstep := State.copyStep_of_ready hr
    have hpred := h.copyRem_pred hc
    obtain ⟨t, hrun, hcopied⟩ := ih (hturn.inv h) (by rw [hstep]; exact hm) (by rw [hstep]; exact hr)
      (by rw [hstep]; exact (ite_eq_or_eq _ _ _).symm) (by rw [hstep]; exact Nat.succ.inj (hpred.trans hn))
    exact ⟨t, (hturn.runSteps hm n).trans hrun, h.copied_step hc hr hcopied⟩

/-- Settles O53: the copy's source is behind the write position, so each byte is read at COPY_SRC itself. -/
theorem backwardCopyReadsOutput : Obligations.BackwardCopyReadsOutput := by
  intro s h hm hr hp hbehind
  have hin := h.window.inWindow hp
  obtain ⟨t, hrun, hc⟩ := h.exists_copied hm hr (.inl hp) rfl
  refine ⟨by rw [Config.window] at hin; omega, t, hrun, hc.phase, hc.length,
    (List.prefix_iff_eq_take.mp hc.output).symm, fun i hi => ?_⟩
  rw [hc.reads i hi, State.copyFrom_of_behind hbehind]
  rfl

/-- Settles O54, by induction on the byte's number: the first `d` bytes are the `d` before the write position, and each
later one the byte `d` before it. -/
theorem overlappingCopyRepeats : Obligations.OverlappingCopyRepeats := by
  intro s d h hm hr hp hd hpos hdist
  obtain ⟨-, t, hrun, htop, -, -, hread⟩ := backwardCopyReadsOutput s h hm hr hp (by omega)
  have hlen := h.output.emitted
  have hback (i : Nat) (hi : i < s.copyRem.toNat) :
      t.output[s.output.length + i]? = t.output[s.output.length + i - d]? := by
    rw [hread i hi, if_neg (by omega)]
    congr 1
    omega
  refine ⟨t, hrun, htop, fun i => ?_⟩
  induction i using Nat.strong_induction_on with
  | _ i ih =>
    intro hi
    rw [hback i hi]
    by_cases hlt : i < d
    · rw [Nat.mod_eq_of_lt hlt]
    · rw [Nat.mod_eq_sub_mod (Nat.le_of_not_lt hlt), ← ih (i - d) (by omega) (by omega),
        Nat.add_sub_assoc (Nat.le_of_not_lt hlt)]

/-! ## A whole token (R83, R87, R99) -/

/-- Where the second byte is offered and the consumer accepts, a token runs from BR1 to the end of its copy. -/
theorem State.Inv.exists_copied_of_br1 (h : s.Inv) (hm : s.moves = []) (hr : s.outReady = true) (hp : s.phase = .br1)
    {b1 : Byte} {rest : List Byte} (ho : s.offered = b1 :: rest) :
    ∃ t, s.runSteps (1 + tokenLength b1) = .next t ∧ (s.tokenResolve b1).Copied t (tokenLength b1) := by
  have hstep := State.tokenResolve_of_cons ho b1
  have hturn : s.Turn (s.tokenResolve b1) := by rw [hstep]; exact .takeTokenSecond hp ho rfl rfl
  have hrem : (s.tokenResolve b1).copyRem.toNat = tokenLength b1 := by rw [hstep]; exact tokenLength_toNat b1
  obtain ⟨t, hrun, hc⟩ := (hturn.inv h).exists_copied (by rw [hstep]; exact hm) (by rw [hstep]; exact hr)
    (.inl (by rw [hstep])) hrem
  exact ⟨t, by rw [Nat.add_comm, hturn.runSteps hm, hrun], hc⟩

/-- Settles O52: TOP, UNIT and BR0 make a step each, and the rest is BR1 with its copy. -/
theorem tokenUnitTakesLengthSteps : Obligations.TokenUnitTakesLengthSteps := by
  intro s b0 b1 rest h hm hr hp hleft hcnt hbit ho
  have hne : s.srcPos ≠ s.srcLen := by rintro he; rw [he] at hleft; omega
  have hunit : s.Turn { s with phase := .unit } := .goUnit hp hne hcnt
  have hbr0 := State.Turn.bitToken (s := { s with phase := .unit }) rfl hbit
  have hbr1 := State.Turn.takeTokenFirst (s := { s with
    ctrlByte := s.ctrlByte >>> 1, ctrlCnt := s.ctrlCnt - 1, phase := .br0 }) rfl ho hleft
  have hinv := hbr1.inv (hbr0.inv (hunit.inv h))
  obtain ⟨t, hrun, hc⟩ := hinv.exists_copied_of_br1 hm hr rfl rfl
  have hstart := State.tokenResolve_of_cons (s := { s with
    ctrlByte := s.ctrlByte >>> 1, ctrlCnt := s.ctrlCnt - 1, offered := b1 :: rest, input := s.input ++ [b0]
    srcPos := s.srcPos + 1, tokLo := b0, phase := .br1 }) rfl b1
  rw [hstart] at hc
  have hlen := hc.length
  have hsum := hc.inv.window.outside_copy (by simp [hc.phase])
  refine ⟨t, ?_, hc.phase, hlen, (List.prefix_iff_eq_take.mp hc.output).symm, ?_, ?_, hc.offered,
    hc.inv.window.copyRem_eq_zero (by simp [hc.phase]), hsum.1⟩
  · rw [show 4 + tokenLength b1 = 1 + tokenLength b1 + 1 + 1 + 1 by omega, hunit.runSteps hm, hbr0.runSteps hm,
      hbr1.runSteps hm, hrun]
  · rw [← hc.inv.output.emitted, hlen, h.output.emitted]
  · rw [hc.srcPos]
    bv_omega

/-- Settles O55: the resolved position is COPY_SRC, which the copy reads one lap before where it is not behind the write
position. -/
theorem forwardReferenceReads : Obligations.ForwardReferenceReads := by
  intro s b1 rest p h hm hr hp ho hres
  have hc : s.phase ≠ .copy := by simp [hp]
  have hiff := h.forward_iff hc (tokenOffset s.tokLo b1) (tokenLength b1)
  rw [← hres] at hiff
  refine ⟨hiff, fun hahead => ?_⟩
  obtain ⟨hwrap, -⟩ := hiff.mp hahead
  obtain ⟨-, hhigh⟩ := resolveRule.2 s (tokenOffset s.tokLo b1) (tokenLength b1) h hp (tokenLength_bounds b1).1
    (tokenLength_bounds b1).2
  rw [← hres] at hhigh
  obtain ⟨t, hrun, hcopied⟩ := h.exists_copied_of_br1 hm hr hp ho
  have hstart := State.tokenResolve_of_cons ho b1
  have hsrc : (s.tokenResolve b1).copySrc.toInt = p := by
    rw [hstart]
    exact (h.toInt_resolved hp rfl rfl).trans hres.symm
  have hfrom : (s.tokenResolve b1).copyFrom = p - 4096 := by
    rw [State.copyFrom_of_ahead (by rw [hsrc, hstart]; exact hahead), hsrc]
    rfl
  have hout : (s.tokenResolve b1).output = s.output := by rw [hstart]
  have hfwd : (s.tokenResolve b1).status.fwdref = true := by
    rw [hstart]
    simp [Status.flagForward, ← hres, hahead]
  refine ⟨by rw [hres, h.resolve_of_wrap hc _ hwrap], by omega, t, hrun, hcopied.phase, hcopied.fwdref.trans hfwd,
    by rw [hcopied.length, hout], fun i hi => ?_⟩
  rw [← hout, hcopied.reads i hi, hfrom, show p - 4096 + (i : Int) = p + i - 4096 by omega]
  rfl

end Sys2Proof.Machine
end

section
/-!
SUPPORT. The output of a run is the textbook ring decoder's (spec/42_back_reference.md R90): each turn of the decoder
takes the textbook decoder, put where the block stands, as far as it takes the block.
-/

namespace Sys2Proof.Machine

variable {s t : State}

/-! ## The ring -/

/-- An emission of the block is one of the ring's (R41). -/
theorem State.Inv.ringEmit_ring (h : s.Inv) (v : Byte) :
    ringEmit v s.ring = ((s.dict.write s.dstLen.toNat v).get, s.output ++ [v]) := by
  have hslot : s.output.length % 4096 = slotOf s.dstLen.toNat := by rw [h.output.emitted]; rfl
  simp only [ringEmit, State.ring, hslot]
  congr 1
  funext slot
  by_cases he : slot = slotOf s.dstLen.toNat
  · rw [he, Function.update_self, Dict.write, Dict.get_set_same h.output.canonical]
  · rw [Function.update_of_ne he, Dict.write, Dict.get_set_other _ _ he]

/-- A run on the ring depends on its first slot modulo the window only. -/
theorem ringCopy_congr {i j : Nat} (hij : i % 4096 = j % 4096) (n : Nat) (r : (Nat → Byte) × List Byte) :
    ringCopy i n r = ringCopy j n r := by
  induction n generalizing i j r with
  | zero => rfl
  | succ n ih => rw [ringCopy, ringCopy, hij, ih (i := i + 1) (j := j + 1) (by omega)]

/-- A COPY step is the first step of the run left on the ring, and leaves the rest of it (R84). -/
theorem State.Inv.ringCopy_of_copy (h : s.Inv) (hp : s.phase = .copy) :
    ringCopy s.copySlot s.copyRem.toNat s.ring =
      ringCopy ((s.copySrc + 1).toInt % Config.window).toNat (s.copyRem - 1).toNat
        ((s.dict.write s.dstLen.toNat s.copyByte).get, s.output ++ [s.copyByte]) := by
  have hmod : s.copySlot % 4096 = s.copySlot := by simp only [State.copySlot, Config.window]; omega
  have hbyte : s.ring.1 (s.copySlot % 4096) = s.copyByte := by rw [hmod, h.copyByte_eq_dict hp]; rfl
  have hnext : (s.copySlot + 1) % 4096 = ((s.copySrc + 1).toInt % Config.window).toNat % 4096 := by
    simp only [State.copySlot, h.copySrc_succ, Config.window]
    omega
  rw [← h.copyRem_pred hp, ringCopy, hbyte, h.ringEmit_ring, ringCopy_congr hnext]

/-! ## The control bits -/

theorem State.bitsLeft_of_none (h : s.ctrlCnt = 0) : s.bitsLeft = [] := by
  rw [State.bitsLeft, h]
  rfl

/-- The extraction takes the first of the bits left (R71). -/
theorem State.bitsLeft_of_unit (hc : 0 < s.ctrlCnt.toNat) : s.bitsLeft = s.ctrlByte[0] :: s.extractBit.bitsLeft := by
  have hpred : s.ctrlCnt.toNat = (s.ctrlCnt - 1).toNat + 1 := by bv_omega
  rw [State.bitsLeft, State.bitsLeft, hpred, List.range_succ_eq_map]
  simp [State.extractBit, Nat.add_comm]

/-! ## The slot of a token -/

/-- The slot the copy of a token begins at is the token's offset (R83). -/
theorem State.Inv.slot_resolved (h : s.Inv) (hp : s.phase = .br1) {b : Byte} {a : WinPos × BitVec 32} {p : Int}
    (ha : winAdvance s.winCtr s.winOrigin (tokenLength b) = a)
    (hres : resolve (tokenOffset s.tokLo b) a.2 s.dstLen = p) :
    ((BitVec.ofInt 33 p).toInt % Config.window).toNat = (tokenOffset s.tokLo b).toNat := by
  have horg : a.2.toNat % Config.window = 0 := ha ▸ winAdvance_origin h.window.origin _ _
  rw [h.toInt_resolved hp ha hres, ← hres, resolve_mod_window horg, Int.toNat_natCast]

/-! ## A turn and the textbook decoder -/

theorem State.Turn.srcLen_eq (ht : s.Turn t) : t.srcLen = s.srcLen := by cases ht <;> rfl

/-- A run stops only at the stream's end (R95). -/
theorem State.Turn.srcPos_of_done (ht : s.Turn t) (h : s.Inv) (hs : s.phase ≠ .done) (hd : t.phase = .done) :
    t.srcPos.toNat = t.srcLen.toNat := by
  cases ht with
  | wait => exact absurd hd hs
  | stopClean hp he => exact congrArg _ he
  | stopTail hp ho he => exact (State.srcPos_succ (by omega)).trans he
  | stopOverrun hp ho he =>
    have hlt := h.source.byteLeft (by simp [State.needsByte, hp])
    have hsucc := State.srcPos_succ hlt
    simp only [State.finish_srcPos, State.finish_srcLen]
    omega
  | goRefill | goUnit | bitLiteral | bitToken | takeControl | takeLiteral | emitLiteral | takeTokenFirst
  | takeTokenSecond | copyLast | copyMore => cases hd

/-- From `s` to `t` the block takes `bytes`, and the textbook decoder makes of every rest of the stream that begins with
them what it makes, put at `t`, of the stream after them. -/
def State.TextbookGoesOn (s t : State) (bytes : List Byte) : Prop :=
  t.input = s.input ++ bytes ∧ ∀ rest : List Byte, s.srcPos.toNat + (bytes ++ rest).length = s.srcLen.toNat →
    s.textbookRest (bytes ++ rest) = t.textbookRest rest

theorem State.TextbookGoesOn.of_same (hin : t.input = s.input)
    (h : ∀ rest, s.srcPos.toNat + rest.length = s.srcLen.toNat → s.textbookRest rest = t.textbookRest rest) :
    s.TextbookGoesOn t [] :=
  ⟨by simp [hin], h⟩

/-- A turn takes the first unit of the rest of the stream from the grammar, or makes a part of it on the ring, or
leaves both decoders where they are. -/
theorem State.Turn.textbookGoesOn (ht : s.Turn t) (h : s.Inv) : ∃ bytes, s.TextbookGoesOn t bytes := by
  cases ht with
  | wait => exact ⟨[], .of_same rfl fun _ _ => rfl⟩
  | stopClean hp he =>
    refine ⟨[], .of_same rfl fun rest hl => ?_⟩
    obtain rfl : rest = [] := List.eq_nil_of_length_eq_zero (by rw [he] at hl; omega)
    simp [State.textbookRest, hp, parseFrom, ringRest, ringUnits, State.ring]
  | goRefill hp | goUnit hp => exact ⟨[], .of_same rfl fun rest _ => by simp only [State.textbookRest, hp]; rfl⟩
  | bitLiteral hp hb | bitToken hp hb =>
    refine ⟨[], .of_same rfl fun rest _ => ?_⟩
    simp only [State.textbookRest, hp, State.bitsLeft_of_unit (h.source.unitHasBit hp), hb]
    rfl
  | stopTail hp ho he =>
    refine ⟨[_], rfl, fun rest hl => ?_⟩
    obtain rfl : rest = [] := List.eq_nil_of_length_eq_zero (by simp at hl; omega)
    simp only [State.textbookRest, hp, State.bitsLeft_of_none (h.source.refillHasNone hp)]
    rfl
  | @takeControl b _ hp ho hl =>
    refine ⟨[b], rfl, fun rest hrest => ?_⟩
    have hne : rest ≠ [] := by rintro rfl; exact hl hrest
    simp only [State.textbookRest, hp, State.bitsLeft_of_none (h.source.refillHasNone hp), List.singleton_append,
      parseFrom_control hne]
    rfl
  | takeLiteral hp =>
    refine ⟨[_], rfl, fun rest _ => ?_⟩
    simp only [State.textbookRest, hp, List.singleton_append, parseFrom]
    rfl
  | emitLiteral hp =>
    refine ⟨[], .of_same rfl fun rest _ => ?_⟩
    simp only [State.textbookRest, hp, h.ringEmit_ring]
    rfl
  | @stopOverrun b _ hp ho he =>
    refine ⟨[b], rfl, fun rest hl => ?_⟩
    obtain rfl : rest = [] := List.eq_nil_of_length_eq_zero (by simp at hl; omega)
    simp only [State.textbookRest, hp]
    rfl
  | takeTokenFirst hp =>
    refine ⟨[_], rfl, fun rest _ => ?_⟩
    simp only [State.textbookRest, hp]
    rfl
  | @takeTokenSecond b _ a p hp ho ha hres =>
    refine ⟨[b], rfl, fun rest _ => ?_⟩
    simp only [State.textbookRest, State.copySlot, hp, List.singleton_append, parseFrom, tokenLength_toNat,
      h.slot_resolved hp ha hres]
    rfl
  | copyLast hp hr hl =>
    refine ⟨[], .of_same rfl fun rest _ => ?_⟩
    have hlast : s.copyRem - 1 = 0 := by rw [hl]; rfl
    simp only [State.textbookRest, hp, h.ringCopy_of_copy hp, hlast]
    rfl
  | copyMore hp hr hl =>
    refine ⟨[], .of_same rfl fun rest _ => ?_⟩
    simp only [State.textbookRest, hp, h.ringCopy_of_copy hp]
    rfl

/-! ## A step and the textbook decoder -/

theorem State.start_followsTextbook (s : State) : s.start.FollowsTextbook where
  running _ _ _ := rfl
  stopped := nofun

theorem State.Turn.followsTextbook (ht : s.Turn t) (h : s.Inv) (hf : s.FollowsTextbook) : t.FollowsTextbook := by
  by_cases hs : s.Running
  case neg =>
    have hwait : t = s := by
      have hsame := State.decoderStep_of_wait (s := s) (by simp only [State.Running] at hs; tauto)
      exact Host.Outcome.next.inj (ht.decoderStep_eq.symm.trans hsame)
    exact hwait ▸ hf
  case pos =>
    obtain ⟨bytes, hin, hrest⟩ := ht.textbookGoesOn h
    have hgoes (rest : List Byte) (hl : t.srcPos.toNat + rest.length = t.srcLen.toNat) :
        textbook (t.input ++ rest) = t.textbookRest rest := by
      have htaken := (ht.inv h).source.taken
      have hl' : s.srcPos.toNat + (bytes ++ rest).length = s.srcLen.toNat := by
        rw [hin, List.length_append, h.source.taken] at htaken
        rw [List.length_append, ← ht.srcLen_eq]
        omega
      rw [hin, List.append_assoc, hf.running hs _ hl', hrest rest hl']
    refine ⟨fun _ => hgoes, fun hd => ?_⟩
    have hend := hgoes [] (ht.srcPos_of_done h hs.2 hd)
    simpa only [List.append_nil, State.textbookRest, hd] using hend

/-- What the host drives, has still to do and has read is not compared. -/
theorem State.FollowsTextbook.host (hf : s.FollowsTextbook) (offered : List Byte) (ready : Bool)
    (moves : List HostMove) (got : List Word) :
    State.FollowsTextbook { s with offered := offered, outReady := ready, moves := moves, got := got } where
  running := hf.running
  stopped := hf.stopped

theorem State.Change.followsTextbook (hc : s.Change t) (h : s.Inv) (hf : s.FollowsTextbook) : t.FollowsTextbook := by
  cases hc with
  | turn ht => exact ht.followsTextbook h hf
  | start => exact s.start_followsTextbook
  | srcLen hb n => exact ⟨fun hr => absurd (h.status.busy.mpr hr) (by simp [hb]), hf.stopped⟩
  | host offered ready got => exact hf.host offered ready s.moves got

theorem step_followsTextbook (h : s.Inv) (hf : s.FollowsTextbook) (hstep : step s = .next t) : t.FollowsTextbook := by
  obtain ⟨ms, ⟨-, rfl⟩ | ⟨-, hc⟩⟩ := step_cases hstep
  · exact ⟨fun hr => absurd rfl hr.1, nofun⟩
  · exact hc.followsTextbook (h.host s.offered s.outReady ms s.got) (hf.host s.offered s.outReady ms s.got)

/-- Settles O57: START begins with both decoders at the stream's start, a turn takes the textbook decoder as far as the
block, reset ends the run, and no other move of the host touches it. -/
theorem runFollowsTextbookDecoder : Obligations.RunFollowsTextbookDecoder :=
  ⟨State.start_followsTextbook, fun _ _ => step_followsTextbook, fun _ hf => hf.stopped⟩

end Sys2Proof.Machine
end

section
/-!
SUPPORT. The decode contract for a host that offers the whole stream and accepts output (spec/42_back_reference.md R90,
spec/43_termination.md R99, spec/44_host_control.md R109): the run comes to its end within R99's bound.
-/

namespace Sys2Proof.Machine

variable {s₀ s t : State} {k : Nat}

/-! ## The steps a run has made (R99) -/

/-- The steps of the unit begun that no byte taken or emitted pays for yet, at 4 steps for a byte taken and 1 for a byte
emitted. -/
def Phase.stepsAhead : Phase → Nat
  | .refill | .unit | .done => 1
  | .lit | .br0 => 2
  | .idle | .top | .litOut | .br1 | .copy => 0

/-- The steps that bytes taken and emitted, and the phase, allow the run so far. -/
def State.stepsAllowed (s : State) : Nat := 4 * s.srcPos.toNat + s.dstLen.toNat + s.phase.stepsAhead

/-- The decoder's next turn leaves everything as it is: no run is in progress, or the phase's transfer is not offered
(R9, R125). -/
def State.Waits (s : State) : Prop :=
  s.phase = .idle ∨ s.phase = .done ∨ (s.inReady = true ∧ s.offered = []) ∨ (s.outValid = true ∧ s.outReady = false)

/-- Any other turn allows one step more. -/
theorem State.Turn.stepsAllowed_succ (ht : s.Turn t) (h : s.Inv) (hw : ¬s.Waits) :
    s.stepsAllowed + 1 ≤ t.stepsAllowed := by
  have hpos : s.needsByte = true → (s.srcPos + 1).toNat = s.srcPos.toNat + 1 :=
    fun hn => State.srcPos_succ (h.source.byteLeft hn)
  cases ht with
  | wait hwait => exact absurd hwait hw
  | stopClean hp | goRefill hp | goUnit hp | bitLiteral hp | bitToken hp =>
    simp [State.stepsAllowed, Phase.stepsAhead, hp]
  | stopTail hp | takeControl hp | takeLiteral hp | stopOverrun hp | takeTokenFirst hp | takeTokenSecond hp =>
    have hpos := hpos (by simp [State.needsByte, hp])
    simp only [State.stepsAllowed, Phase.stepsAhead, hp, hpos, State.finish_phase, State.finish_dstLen,
      State.finish_srcPos]
    omega
  | emitLiteral hp | copyLast hp | copyMore hp =>
    simp only [State.stepsAllowed, Phase.stepsAhead, hp, h.dstLen_succ]
    omega

/-! ## The served run (R109) -/

/-- `s` is a state of the run from `s₀` after `k` steps, the host having offered its bytes before and accepting
output. -/
structure State.ServedAt (s₀ s : State) (k : Nat) : Prop where
  noMoves : s.moves = []
  accepts : s.outReady = true
  srcLen : s.srcLen = s₀.srcLen
  stream : s.input ++ s.offered = s₀.offered
  notIdle : s.phase ≠ .idle
  ended : s.phase = .done → s.srcPos.toNat = s.srcLen.toNat
  inv : s.Inv
  follows : s.FollowsTextbook
  steps : k ≤ s.stepsAllowed

theorem State.Served.servedAt_start (h : s.start.Served) : s.ServedAt s.start 0 :=
  ⟨h.noMoves, h.accepts, rfl, rfl, nofun, nofun, s.start_inv, s.start_followsTextbook, Nat.zero_le _⟩

/-- The decoder changes nothing that the host drives but for the bytes it takes. -/
theorem State.Turn.host_eq (ht : s.Turn t) :
    t.moves = s.moves ∧ t.outReady = s.outReady ∧ t.input ++ t.offered = s.input ++ s.offered := by
  cases ht with
  | stopTail hp ho | takeControl hp ho | takeLiteral hp ho | stopOverrun hp ho | takeTokenFirst hp ho
  | takeTokenSecond hp ho => simp [ho]
  | wait | stopClean | goRefill | goUnit | bitLiteral | bitToken | emitLiteral | copyLast | copyMore =>
    exact ⟨rfl, rfl, rfl⟩

theorem State.needsByte_of_inReady (h : s.inReady = true) : s.needsByte = true := by
  cases hp : s.phase <;> simp_all [State.inReady, State.needsByte]

/-- A served run never waits before its end. -/
theorem State.ServedAt.not_waits (h : s₀.ServedAt s k) (hlen : s₀.srcLen.toNat ≤ s₀.offered.length)
    (hd : s.phase ≠ .done) : ¬s.Waits := by
  rintro (hidle | hdone | ⟨hin, hnone⟩ | ⟨-, hready⟩)
  · exact h.notIdle hidle
  · exact hd hdone
  · have hleft := h.inv.source.byteLeft (State.needsByte_of_inReady hin)
    have hall : s.input = s₀.offered := by rw [← h.stream, hnone, List.append_nil]
    rw [← h.inv.source.taken, hall, h.srcLen] at hleft
    omega
  · rw [h.accepts] at hready
    cases hready

/-- A step of a served run goes on with it. -/
theorem State.ServedAt.turn (h : s₀.ServedAt s k) (hlen : s₀.srcLen.toNat ≤ s₀.offered.length)
    (hd : s.phase ≠ .done) (ht : s.Turn t) : s₀.ServedAt t (k + 1) := by
  obtain ⟨hmoves, hready, hstream⟩ := ht.host_eq
  have hidle (hq : t.phase = .idle) : False := by
    have htable := ht.phase_mem_table fun he => h.notIdle (he.symm.trans hq)
    simp [hq] at htable
  have hsucc := ht.stepsAllowed_succ h.inv (h.not_waits hlen hd)
  exact {
    noMoves := hmoves.trans h.noMoves
    accepts := hready.trans h.accepts
    srcLen := ht.srcLen_eq.trans h.srcLen
    stream := hstream.trans h.stream
    notIdle := hidle
    ended := ht.srcPos_of_done h.inv hd
    inv := ht.inv h.inv
    follows := ht.followsTextbook h.inv h.follows
    steps := le_trans (Nat.succ_le_succ h.steps) hsucc }

/-- The output bound leaves a run at most 13 steps for a byte of its stream, and 2 more (R85). -/
theorem State.ServedAt.steps_le (h : s₀.ServedAt s k) (hd : s.phase ≠ .done) : k ≤ 13 * s₀.srcLen.toNat + 2 := by
  have hsteps := h.steps
  have hbound := h.inv.output.bound
  have hwithin := h.inv.source.within ⟨h.notIdle, hd⟩
  have hahead : s.phase.stepsAhead ≤ 2 := by cases s.phase <;> decide
  rw [h.srcLen] at hwithin
  rw [State.stepsAllowed] at hsteps
  omega

/-- A served run comes to its end, by induction on the steps that the bound still leaves it. -/
theorem State.ServedAt.exists_done (h : s₀.ServedAt s k) (hlen : s₀.srcLen.toNat ≤ s₀.offered.length) {n : Nat}
    (hn : 13 * s₀.srcLen.toNat + 2 < k + n) :
    ∃ j t, s.runSteps j = .next t ∧ t.phase = .done ∧ s₀.ServedAt t (k + j) := by
  induction n generalizing s k with
  | zero =>
    by_cases hd : s.phase = .done
    · exact ⟨0, s, rfl, hd, h⟩
    · have := h.steps_le hd
      omega
  | succ n ih =>
    by_cases hd : s.phase = .done
    · exact ⟨0, s, rfl, hd, h⟩
    · obtain ⟨u, -, hturn⟩ := s.exists_turn
      obtain ⟨j, t, hrun, hdone, ht⟩ := ih (h.turn hlen hd hturn) (by omega)
      exact ⟨j + 1, t, (hturn.runSteps h.noMoves j).trans hrun, hdone, by rwa [Nat.add_assoc, Nat.add_comm 1] at ht⟩

/-- Settles O58: at the end of the served run its steps are paid for, the bytes taken are the whole stream, and the run
follows the textbook decoder. -/
theorem servedRunDecodes : Obligations.ServedRunDecodes := by
  intro s h
  have hlen : s.srcLen.toNat ≤ s.offered.length := by simpa using h.offers
  obtain ⟨k, t, hrun, hd, ht⟩ := h.servedAt_start.exists_done hlen (n := 13 * s.srcLen.toNat + 3)
    (by omega)
  rw [Nat.zero_add] at ht
  have hend : t.srcPos.toNat = s.srcLen.toNat := (ht.ended hd).trans (congrArg _ ht.srcLen)
  have htaken : t.input.length = s.srcLen.toNat := ht.inv.source.taken.trans hend
  have hstream : t.input ++ t.offered = s.offered := ht.stream
  have hinput : t.input = s.offered.take s.srcLen.toNat := by rw [← hstream, List.take_left' htaken]
  have hsteps := ht.steps
  rw [State.stepsAllowed, hend, hd] at hsteps
  exact ⟨k, t, hrun, hd, hsteps, BitVec.eq_of_toNat_eq hend, hinput, by rw [← hstream, List.drop_left' htaken],
    by rw [← hinput, ht.follows.stopped hd], ht.inv.output.emitted⟩

end Sys2Proof.Machine
end

section
/-!
SUPPORT. The statements of spec/43_termination.md about the input's limits and the stop (R94 to R100), and the steps of
a whole literal (spec/41_literal.md R75, R76, R92).
-/

namespace Sys2Proof.Machine

variable {s t : State}

/-! ## The loop test (R94) -/

theorem State.decoderStep_top (hp : s.phase = .top) : s.decoderStep = .next s.loopTest := by
  rw [State.decoderStep, hp]

/-- Settles O15: TOP is a phase of a run, where the invariant keeps SRC_POS within SRC_LEN. -/
theorem loopTestAtTop : Obligations.LoopTestAtTop := fun _ hp =>
  ⟨State.decoderStep_top hp, fun h => h.source.within (by simp [State.Running, hp])⟩

/-! ## The input's limits (R54, R97) -/

theorem State.running_of_inReady (h : s.inReady = true) : s.Running := by
  constructor <;> intro hp <;> simp [State.inReady, hp] at h

/-- Settles O40: a step takes no byte, or its phase takes input, and the invariant gives such a phase a run and a stream
byte left. -/
theorem inputOnlyWithinStream : Obligations.InputOnlyWithinStream := by
  intro s t h hstep
  refine ⟨h.source.within, ?_⟩
  rcases (atMostOneTransfer s t hstep).1 with ⟨hin, hoff, -⟩ | ⟨hready, -⟩
  · exact ⟨fun hne => absurd hin hne, fun _ => hoff⟩
  · have hrun := State.running_of_inReady hready
    have hleft := h.source.byteLeft (State.needsByte_of_inReady hready)
    refine ⟨fun _ => ⟨hrun, hleft⟩, ?_⟩
    rintro (hstopped | hend)
    · exact absurd hrun hstopped
    · exact absurd (congrArg _ hend) hleft.ne

/-! ## The results kept in DONE (R95) -/

theorem regAt_eq_ctrl {offset : BitVec 8} : regAt offset = .ctrl ↔ offset = 0 := by
  constructor
  · intro h
    unfold regAt at h
    split at h
    case h_1 hz => exact BitVec.eq_of_toNat_eq hz
    all_goals cases h
  · rintro rfl
    rfl

/-- A register write that is no START changes SRC_LEN at most (R101, R102, R104). -/
theorem State.writeReg_of_not_start (s : State) {offset : BitVec 8} {x : Word} (h : x[0] = true → offset ≠ 0) :
    ∃ n, s.writeReg x (regAt offset) = { s with srcLen := n } := by
  rcases s.writeReg_cases x (regAt offset) with hw | ⟨-, hctrl, hx, -⟩ | ⟨-, -, hw⟩
  · exact ⟨s.srcLen, hw⟩
  · exact absurd (regAt_eq_ctrl.mp hctrl) (h hx)
  · exact ⟨_, hw⟩

/-- In DONE every move but START and reset leaves the block as it is, but for SRC_LEN. -/
theorem State.move_of_done (hd : s.phase = .done) {m : HostMove} (h : s.move m = .next t) (hreset : m ≠ .reset)
    (hstart : ∀ x, x[0] = true → m ≠ .regWrite 0x00 32 x) :
    ∃ n offered ready got, t = { s with srcLen := n, offered := offered, outReady := ready, got := got } := by
  rcases State.move_cases h with ⟨offset, x, rfl, -, rfl⟩ | ⟨offset, -, -, rfl⟩ | ⟨b, -, rfl⟩ | ⟨-, rfl⟩ |
      ⟨r, -, rfl⟩ | ⟨hr, -⟩ | ⟨-, hturn⟩
  · obtain ⟨n, hw⟩ := s.writeReg_of_not_start (offset := offset) (x := x) fun hx hz => hstart x hx (hz ▸ rfl)
    exact ⟨n, _, _, _, hw⟩
  · exact ⟨_, _, _, _, rfl⟩
  · exact ⟨_, _, _, _, rfl⟩
  · exact ⟨_, _, _, _, rfl⟩
  · exact ⟨_, _, _, _, rfl⟩
  · exact absurd hr hreset
  · obtain rfl := Host.Outcome.next.inj ((State.decoderStep_of_wait (.inr (.inl hd))).symm.trans hturn)
    exact ⟨_, _, _, _, rfl⟩

/-- A step with no move pending is the decoder's, which waits in DONE. -/
theorem step_of_done (hd : s.phase = .done) (h : step s = .next t) (hreset : s.moves.head? ≠ some .reset)
    (hstart : ∀ x, x[0] = true → s.moves.head? ≠ some (.regWrite 0x00 32 x)) :
    ∃ n offered ready moves got,
      t = { s with srcLen := n, offered := offered, outReady := ready, moves := moves, got := got } := by
  cases hm : s.moves with
  | nil =>
    rw [step_of_no_moves hm, State.decoderStep_of_wait (.inr (.inl hd))] at h
    obtain rfl := Host.Outcome.next.inj h
    exact ⟨_, _, _, _, _, rfl⟩
  | cons m ms =>
    rw [step_of_move hm] at h
    rw [hm, List.head?_cons] at hreset
    simp only [hm, List.head?_cons] at hstart
    obtain ⟨n, offered, ready, got, rfl⟩ := State.move_of_done (s := { s with moves := ms }) hd h
      (fun e => hreset (congrArg some e)) fun x hx e => hstart x hx (congrArg some e)
    exact ⟨n, offered, ready, ms, got, rfl⟩

/-- Settles O43: a step from DONE changes none of the results. -/
theorem doneKeepsResults : Obligations.DoneKeepsResults := by
  refine ⟨fun _ _ => rfl, fun s t _ hd hstep hreset hstart => ?_⟩
  obtain ⟨n, offered, ready, moves, got, rfl⟩ := step_of_done hd hstep hreset hstart
  exact ⟨hd, rfl, rfl, rfl, rfl, rfl, rfl, rfl, rfl, rfl⟩

/-! ## How a run stops (R96, R98, R100) -/

/-- The three stops, each with its phase, its cause and the byte it takes. -/
theorem State.Turn.stop_cases (ht : s.Turn t) (hs : s.phase ≠ .done) (hd : t.phase = .done) :
    (s.phase = .top ∧ t.status.endCause = .clean ∧ t.input = s.input) ∨
      (s.phase = .refill ∧ t.status.endCause = .tail ∧ t.ctrlCnt = 8 ∧ ∃ b, t.input = s.input ++ [b]) ∨
      (s.phase = .br0 ∧ t.status.endCause = .overrun ∧ ∃ b, t.input = s.input ++ [b]) := by
  cases ht with
  | wait => exact absurd hd hs
  | stopClean hp => exact .inl ⟨hp, rfl, rfl⟩
  | stopTail hp => exact .inr (.inl ⟨hp, rfl, rfl, _, rfl⟩)
  | stopOverrun hp => exact .inr (.inr ⟨hp, rfl, _, rfl⟩)
  | goRefill | goUnit | bitLiteral | bitToken | takeControl | takeLiteral | emitLiteral | takeTokenFirst
  | takeTokenSecond | copyLast | copyMore => cases hd

/-- Settles O44: only a turn of the decoder stops a run, and the invariant gives the stopped state its BUSY and DONE. -/
theorem runStopsAtStreamEnd : Obligations.RunStopsAtStreamEnd := by
  intro s t h hstep hs hd
  have hstatus := (everyStepKeepsInvariant s t h hstep).status
  obtain ⟨ms, ⟨-, rfl⟩ | ⟨-, hc⟩⟩ := step_cases hstep
  · cases hd
  · cases hc with
    | turn ht =>
      have hend := ht.srcPos_of_done (h.host s.offered s.outReady ms s.got) hs hd
      have hbusy : t.status.busy = false := Bool.eq_false_of_not_eq_true fun hb => (hstatus.busy.mp hb).2 hd
      exact ⟨BitVec.eq_of_toNat_eq hend, ht.srcLen_eq, hbusy, hstatus.done.mpr hd, ht.stop_cases hs hd⟩
    | start => cases hd
    | srcLen | host => exact absurd hd hs

/-! ## A whole literal (R92, R99) -/

/-- Settles O51: TOP, UNIT, LIT and LIT_OUT make a turn each. -/
theorem literalUnitTakesFourSteps : Obligations.LiteralUnitTakesFourSteps := by
  intro s d rest hm hr hp hne hcnt hbit ho
  have hunit : s.Turn { s with phase := .unit } := .goUnit hp hne hcnt
  have hlit := State.Turn.bitLiteral (s := { s with phase := .unit }) rfl hbit
  have hlitOut := State.Turn.takeLiteral (s := { s with
    ctrlByte := s.ctrlByte >>> 1, ctrlCnt := s.ctrlCnt - 1, phase := .lit }) rfl ho
  have htop := State.Turn.emitLiteral (s := { s with
    ctrlByte := s.ctrlByte >>> 1, ctrlCnt := s.ctrlCnt - 1, offered := rest, input := s.input ++ [d]
    srcPos := s.srcPos + 1, litData := d, phase := .litOut }) rfl hr
  have hrun := (hunit.runSteps hm 3).trans <| (hlit.runSteps hm 2).trans <| (hlitOut.runSteps hm 1).trans <|
    htop.runSteps hm 0
  exact ⟨_, hrun, rfl, rfl, rfl, rfl, rfl, rfl, rfl, rfl⟩

end Sys2Proof.Machine
end

section
/-!
SUPPORT. The statements of spec/44_host_control.md: the registers (R101 to R104), the input port (R105) and the output port
(R106, R107).
-/

namespace Sys2Proof.Machine

/-! ## CTRL (R102, R34) -/

theorem State.writeCtrl_of_bit_clear (s : State) {x : Word} (hx : x[0] = false) : s.writeCtrl x = s := by
  rw [State.writeCtrl, hx, Bool.false_and, if_neg Bool.false_ne_true]

theorem State.writeCtrl_of_busy {s : State} (hb : s.status.busy = true) (x : Word) : s.writeCtrl x = s := by
  rw [State.writeCtrl, hb, Bool.not_true, Bool.and_false, if_neg Bool.false_ne_true]

theorem State.writeCtrl_of_start {s : State} {x : Word} (hx : x[0] = true) (hb : s.status.busy = false) :
    s.writeCtrl x = s.start := by
  rw [State.writeCtrl, hx, hb, Bool.not_false, Bool.and_self, if_pos rfl]

/-- Settles O3: offset 0x00 is CTRL, whose write is START or nothing; a dictionary of no entries reads 0x00. -/
theorem startSetsRunValues : Obligations.StartSetsRunValues := by
  intro s x
  have hmove : s.move (.regWrite 0x00 32 x) = .next (s.writeCtrl x) := rfl
  rw [hmove]
  refine ⟨fun hx => congrArg _ (s.writeCtrl_of_bit_clear hx), fun hb => congrArg _ (State.writeCtrl_of_busy hb x),
    fun hx hb => ⟨s.start, congrArg _ (State.writeCtrl_of_start hx hb), ?_⟩⟩
  exact ⟨rfl, rfl, rfl, rfl, rfl, rfl, rfl, rfl, rfl, rfl, rfl, rfl, rfl, rfl, rfl, rfl, Dict.read_nil,
    rfl, rfl, rfl, rfl, rfl, rfl⟩

/-! ## SRC_LEN and the registers a write leaves alone (R101, R104) -/

theorem State.writeSrcLen_of_busy {s : State} (hb : s.status.busy = true) (x : Word) : s.writeSrcLen x = s :=
  if_pos hb

theorem State.writeSrcLen_of_not_busy {s : State} (hb : s.status.busy = false) (x : Word) :
    s.writeSrcLen x = { s with srcLen := x.extractLsb' 0 24 } := by
  rw [State.writeSrcLen, hb, if_neg Bool.false_ne_true]

theorem srcLenBits_eq_mod (x : Word) : x.extractLsb' 0 24 = BitVec.ofNat 24 (x.toNat % 2 ^ 24) := by
  apply BitVec.eq_of_toNat_eq
  rw [BitVec.extractLsb'_toNat, BitVec.toNat_ofNat, Nat.mod_mod, Nat.shiftRight_zero]

/-- Settles O8: offset 0x08 is SRC_LEN, and its 24 bits are the residue modulo 2^24. -/
theorem srcLenWriteOutsideRun : Obligations.SrcLenWriteOutsideRun := by
  intro s x
  have hmove : s.move (.regWrite 0x08 32 x) = .next (s.writeSrcLen x) := rfl
  rw [hmove, ← srcLenBits_eq_mod]
  exact ⟨fun hb => congrArg _ (State.writeSrcLen_of_busy hb x),
    fun hb => congrArg _ (State.writeSrcLen_of_not_busy hb x)⟩

theorem eq_of_regAt_eq_srcLen {offset : BitVec 8} (h : regAt offset = .srcLen) : offset = 0x08 := by
  unfold regAt at h
  split at h
  case h_3 hoffset => exact BitVec.eq_of_toNat_eq hoffset
  all_goals cases h

/-- Settles O9: only a write to CTRL or SRC_LEN can do anything, and these have one offset each. -/
theorem otherWritesIgnored : Obligations.OtherWritesIgnored := by
  intro s offset x hal hctrl hlen
  rw [State.move_regWrite_of_defined (accessDefined_iff.mpr ⟨rfl, hal⟩)]
  rcases s.writeReg_cases x (regAt offset) with hw | ⟨-, hr, -⟩ | ⟨-, hr, -⟩
  · rw [hw]
  · exact absurd (regAt_eq_ctrl.mp hr) hctrl
  · exact absurd (eq_of_regAt_eq_srcLen hr) hlen

/-! ## What the registers read as (R103, R28, R32) -/

theorem toNat_append_eq_add {m n : Nat} (x : BitVec m) (y : BitVec n) :
    (x ++ y).toNat = 2 ^ n * x.toNat + y.toNat := by
  rw [BitVec.toNat_append, ← Nat.shiftLeft_add_eq_or_of_lt y.isLt, Nat.shiftLeft_eq, Nat.mul_comm]

theorem EndCause.code_toNat (c : EndCause) :
    c.code.toNat = [EndCause.none, .clean, .tail, .overrun].idxOf c := by
  cases c <;> decide

theorem Status.word_toNat (st : Status) :
    st.word.toNat = st.busy.toNat + 2 * st.done.toNat + 4 * st.endCause.code.toNat + 16 * st.fwdref.toNat +
      32 * st.zfill.toNat := by
  simp only [Status.word, toNat_append_eq_add, BitVec.toNat_ofBool, BitVec.ofNat_eq_ofNat, BitVec.toNat_zero]
  omega

theorem State.stateWord_toNat (s : State) :
    s.stateWord.toNat = s.winCtr.toNat + 2 ^ 12 * s.ctrlCnt.toNat + 2 ^ 16 * s.ctrlByte.toNat +
      2 ^ 24 * s.phase.code.toNat := by
  simp only [State.stateWord, toNat_append_eq_add, BitVec.ofNat_eq_ofNat, BitVec.toNat_zero]
  omega

theorem regAt_of_reserved {offset : BitVec 8} (h : 0x1C ≤ offset.toNat) : regAt offset = .reserved := by
  unfold regAt
  split
  case h_8 => rfl
  all_goals omega

/-- Settles O11: the value is `readReg` of the register at the offset; the two packed words are sums of their fields. -/
theorem registerReadsReturn : Obligations.RegisterReadsReturn := by
  intro s offset hal
  refine ⟨s.readReg (regAt offset), State.move_regRead_of_defined (accessDefined_iff.mpr ⟨rfl, hal⟩),
    ?ctrl, ?status, ?srcLen, ?srcPos, ?dstLen, ?state, ?winOrigin, ?reserved⟩
  case ctrl | dstLen | winOrigin => rintro rfl; rfl
  case status => rintro rfl; rw [← EndCause.code_toNat]; exact s.status.word_toNat
  case srcLen | srcPos => rintro rfl; exact BitVec.toNat_setWidth_of_le (by decide)
  case state => rintro rfl; exact s.stateWord_toNat
  case reserved => intro h; rw [regAt_of_reserved h]; rfl

/-! ## The input port (R105) -/

theorem State.inReady_iff {s : State} :
    s.inReady = true ↔ s.phase = .refill ∨ s.phase = .lit ∨ s.phase = .br0 ∨ s.phase = .br1 := by
  cases hp : s.phase <;> simp [State.inReady, hp]

theorem State.inValid_eq_false {s : State} : s.inValid = false ↔ s.offered = [] := by
  simp [State.inValid]

/-- A turn of a phase that takes input takes the byte at the port, where there is one, and leaves the phase. -/
theorem State.Turn.takes_offered {s t : State} (ht : s.Turn t) (hi : s.inReady = true) (ho : s.offered ≠ []) :
    ∃ b, s.offered = b :: t.offered ∧ t.input = s.input ++ [b] ∧ t.phase ≠ s.phase := by
  cases ht with
  | stopTail hp hcons | takeControl hp hcons | takeLiteral hp hcons | stopOverrun hp hcons | takeTokenFirst hp hcons
  | takeTokenSecond hp hcons => exact ⟨_, hcons, rfl, by simp [hp]⟩
  | wait h =>
    rcases h with hp | hp | ⟨-, hnone⟩ | ⟨hv, -⟩
    · simp [State.inReady, hp] at hi
    · simp [State.inReady, hp] at hi
    · exact absurd hnone ho
    · simp [State.outValid_of_inReady hi] at hv
  | stopClean hp | goRefill hp | goUnit hp | bitLiteral hp | bitToken hp | emitLiteral hp | copyLast hp | copyMore hp =>
    simp [State.inReady, hp] at hi

/-- Settles O41: the decoder's turn takes the byte at the port where its phase takes input, waits there without one, and
takes none in another phase; the host's two moves are the model's. -/
theorem inputPortTransfers : Obligations.InputPortTransfers := by
  intro s
  refine ⟨State.inReady_iff, fun hi hv => ?taken, fun hi hv => ?held, fun hi t hstep => ?notReady,
    fun _ => rfl, rfl⟩
  case taken =>
    obtain ⟨t, hstep, ht⟩ := s.exists_turn
    have hsome : s.offered ≠ [] := fun hnone => by simp [State.inValid_eq_false.mpr hnone] at hv
    obtain ⟨b, hb⟩ := ht.takes_offered hi hsome
    exact ⟨b, t, hstep, hb⟩
  case held => exact State.decoderStep_of_wait (.inr (.inr (.inl ⟨hi, State.inValid_eq_false.mp hv⟩)))
  case notReady =>
    rcases (atMostOneTransfer s t hstep).1 with ⟨hin, hoff, -⟩ | ⟨hready, -⟩
    · exact ⟨hoff, hin⟩
    · simp [hi] at hready

/-! ## The output port (R106) -/

theorem State.outValid_iff {s : State} : s.outValid = true ↔ s.phase = .litOut ∨ s.phase = .copy := by
  cases hp : s.phase <;> simp [State.outValid, hp]

theorem State.running_of_outValid {s : State} (h : s.outValid = true) : s.Running := by
  rcases State.outValid_iff.mp h with hp | hp <;> simp [State.Running, hp]

/-- From `s` to `t` the output port stands still: what is offered stays offered, and no byte passes. -/
structure State.KeepsOffer (s t : State) : Prop where
  valid : t.outValid = true
  data : t.outData = s.outData
  output : t.output = s.output

/-- The decoder's turn transfers the offered byte as soon as the consumer accepts. -/
theorem State.Turn.emits_offered {s t : State} (ht : s.Turn t) (hv : s.outValid = true) (hr : s.outReady = true) :
    ∃ v, s.EmitsOutput t v := by
  have hstep := ht.decoderStep_eq
  rcases State.outValid_iff.mp hv with hp | hp
  · obtain rfl := Host.Outcome.next.inj (hstep.symm.trans (State.turn_literalOut hp hr).decoderStep_eq)
    exact ⟨_, State.literalOut_emitsOutput hp hr⟩
  · obtain rfl := Host.Outcome.next.inj (hstep.symm.trans (State.turn_copyStep hp hr).decoderStep_eq)
    exact ⟨_, State.copyStep_emitsOutput hp hr⟩

theorem State.Turn.keepsOffer_or_emits {s t : State} (ht : s.Turn t) (hv : s.outValid = true) :
    s.KeepsOffer t ∨ ∃ v, s.EmitsOutput t v := by
  cases hr : s.outReady with
  | true => exact .inr (ht.emits_offered hv hr)
  | false =>
    have hwait := State.decoderStep_of_wait (.inr (.inr (.inr ⟨hv, hr⟩)))
    obtain rfl := Host.Outcome.next.inj (ht.decoderStep_eq.symm.trans hwait)
    exact .inl ⟨hv, rfl, rfl⟩

/-- No move of the host but a reset withdraws the offer: START is not taken in a run, and the others write no register of
the output port. -/
theorem State.Change.keepsOffer_or_emits {s t : State} (hc : s.Change t) (h : s.StatusAgrees)
    (hv : s.outValid = true) : s.KeepsOffer t ∨ ∃ v, s.EmitsOutput t v := by
  cases hc with
  | turn ht => exact ht.keepsOffer_or_emits hv
  | start hb => simp [h.busy.mpr (State.running_of_outValid hv)] at hb
  | srcLen | host => exact .inl ⟨hv, rfl, rfl⟩

/-- Settles O42: a step but for reset keeps the offer or transfers it, and with no move pending it is the decoder's. -/
theorem outputOfferIsKept : Obligations.OutputOfferIsKept := by
  intro s t h hstep hreset
  refine ⟨State.outValid_iff, fun hp => by rw [State.outData, hp], fun hp => by rw [State.outData, hp],
    fun hv => ?kept, fun hv hr hm => ?transferred⟩
  case kept =>
    obtain ⟨ms, ⟨hm, -⟩ | ⟨-, hc⟩⟩ := step_cases hstep
    · simp [hm] at hreset
    · have hstatus := (h.host s.offered s.outReady ms s.got).status
      rcases hc.keepsOffer_or_emits hstatus hv with hkept | ⟨v, hemits⟩
      · exact .inl ⟨hkept.valid, hkept.data, hkept.output⟩
      · exact .inr ⟨hemits.ready, v, hemits.data, hemits.output⟩
  case transferred =>
    rw [step_of_no_moves hm] at hstep
    obtain ⟨v, hemits⟩ := (State.decoderStep_eq_next.mp hstep).emits_offered hv hr
    exact ⟨v, hemits.data, hemits.output⟩

/-- Settles O59: the move is a record update, and `step` makes the first pending move. -/
theorem readyMoveEffect : Obligations.ReadyMoveEffect := fun _ _ => ⟨rfl, fun _ hm => step_of_move hm⟩

end Sys2Proof.Machine
end

section
/-!
SUPPORT. The statements of spec/60_exceptions.md: no condition stops the block (R114), the overrun stop is precise
(R111, R117), and a wait keeps all state (spec/70_reset_and_hazards.md R125).
-/

namespace Sys2Proof.Machine

variable {s t : State}

/-! ## What can stop a step (R44, R114) -/

theorem State.decoderStep_next (s : State) : ∃ t, s.decoderStep = .next t :=
  s.exists_turn.imp fun _ => And.left

/-- The decoder's turn and every move that accesses no register have a next state; a register access has one, or R44
does not define it. -/
theorem State.move_next_or_undefined (s : State) (m : HostMove) :
    (∃ t, s.move m = .next t) ∨ ∃ offset width,
      s.move m = .refused (.undefinedAccess offset width) ∧ ¬accessDefined offset width = true := by
  cases m with
  | regWrite offset width x =>
    by_cases hdef : accessDefined offset width = true
    · exact .inl ⟨_, State.move_regWrite_of_defined hdef x⟩
    · exact .inr ⟨offset, width, State.move_regWrite_of_undefined hdef x, hdef⟩
  | regRead offset width =>
    by_cases hdef : accessDefined offset width = true
    · exact .inl ⟨_, State.move_regRead_of_defined hdef⟩
    · exact .inr ⟨offset, width, State.move_regRead_of_undefined hdef, hdef⟩
  | decoder => exact .inl s.decoderStep_next
  | offer | withdraw | ready | reset => exact .inl ⟨_, rfl⟩

theorem step_next_or_undefined (s : State) :
    (∃ t, step s = .next t) ∨ ∃ offset width,
      step s = .refused (.undefinedAccess offset width) ∧ ¬accessDefined offset width = true := by
  cases hm : s.moves with
  | nil => exact .inl (by rw [step_of_no_moves hm]; exact s.decoderStep_next)
  | cons m ms => rw [step_of_move hm]; exact State.move_next_or_undefined _ m

/-- Settles O48: a step has a next state or is an access R44 does not define, so it is no fault. -/
theorem noStepFaults : Obligations.NoStepFaults := by
  intro s
  refine ⟨s.decoderStep_next, ?_⟩
  rcases step_next_or_undefined s with ⟨t, hnext⟩ | ⟨offset, width, hrefused, hundef⟩
  · simp [hnext]
  · rw [accessDefined_iff] at hundef
    rw [hrefused]
    exact ⟨nofun, fun r hr => ⟨offset, width, (Host.Outcome.refused.inj hr).symm, hundef⟩⟩

/-! ## The waits (R125) -/

/-- With no move pending, a wait goes on. -/
theorem State.Waits.step_eq (hw : s.Waits) (hm : s.moves = []) : step s = .next s :=
  (step_of_no_moves hm).trans (State.decoderStep_of_wait hw)

/-- R101, R102, R104: in a run no register takes a write. -/
theorem State.writeReg_of_busy (hb : s.status.busy = true) (x : Word) (r : Reg) : s.writeReg x r = s := by
  rcases s.writeReg_cases x r with hw | ⟨hidle, -⟩ | ⟨hidle, -⟩
  · exact hw
  · simp [hb] at hidle
  · simp [hb] at hidle

/-- A register write that makes no START, being none or coming in a run, changes SRC_LEN at most. -/
theorem State.writeReg_of_no_start {offset : BitVec 8} {x : Word}
    (h : s.status.busy = false → x[0] = true → offset ≠ 0) :
    ∃ n, s.writeReg x (regAt offset) = { s with srcLen := n } := by
  cases hb : s.status.busy with
  | false => exact s.writeReg_of_not_start (h hb)
  | true => exact ⟨s.srcLen, State.writeReg_of_busy hb x _⟩

/-- What a move leaves of a wait, when it is neither reset nor a START that is taken: PHASE stays, only an offer puts a
byte at the input port, and only the consumer's move makes it accept. -/
theorem State.Waits.move (hw : s.Waits) {m : HostMove} (h : s.move m = .next t) (hreset : m ≠ .reset)
    (hstart : s.status.busy = false → ∀ x, x[0] = true → m ≠ .regWrite 0x00 32 x) :
    t.phase = s.phase ∧ (s.offered = [] → (∀ b, m ≠ .offer b) → t.offered = []) ∧
      (s.outReady = false → m ≠ .ready true → t.outReady = false) := by
  rcases State.move_cases h with ⟨offset, x, rfl, -, rfl⟩ | ⟨offset, -, -, rfl⟩ | ⟨b, rfl, rfl⟩ | ⟨-, rfl⟩ |
      ⟨r, rfl, rfl⟩ | ⟨hr, -⟩ | ⟨-, hturn⟩
  · obtain ⟨n, hwrite⟩ := State.writeReg_of_no_start (s := s) (offset := offset) (x := x)
      fun hb hx hz => hstart hb x hx (hz ▸ rfl)
    rw [hwrite]
    exact ⟨rfl, fun ho _ => ho, fun hr _ => hr⟩
  · exact ⟨rfl, fun ho _ => ho, fun hr _ => hr⟩
  · exact ⟨rfl, fun _ hoffer => absurd rfl (hoffer b), fun hr _ => hr⟩
  · exact ⟨rfl, fun _ _ => rfl, fun hr _ => hr⟩
  · exact ⟨rfl, fun ho _ => ho, fun _ hready => Bool.eq_false_of_not_eq_true fun hr => hready (congrArg _ hr)⟩
  · exact absurd hr hreset
  · obtain rfl := Host.Outcome.next.inj ((State.decoderStep_of_wait hw).symm.trans hturn)
    exact ⟨rfl, fun ho _ => ho, fun hr _ => hr⟩

/-- Settles O39: the decoder's turn in a wait answers the same state, and START, which ends a wait in IDLE or DONE, is
not taken in the waits of a run. -/
theorem waitsKeepState : Obligations.WaitsKeepState := by
  intro s h
  refine ⟨fun hw => ?kept, fun m t hmove hreset => ?left⟩
  case kept =>
    have hturn := State.decoderStep_of_wait hw
    exact ⟨hturn, hturn, State.Waits.step_eq hw⟩
  case left =>
    have hrunning (hw : s.Waits) (hrun : s.Running) := hw.move hmove hreset fun hb => by
      simp [h.status.busy.mpr hrun] at hb
    refine ⟨fun hstopped hstart => ?stopped, fun hi ho hoffer => ?input, fun hv hr hready => ?output⟩
    case stopped =>
      have hw : s.Waits := hstopped.imp_right .inl
      exact (hw.move hmove hreset fun _ => hstart).1
    case input =>
      obtain ⟨hphase, hoffered, -⟩ := hrunning (.inr (.inr (.inl ⟨hi, ho⟩))) (State.running_of_inReady hi)
      exact ⟨hphase, hoffered ho hoffer⟩
    case output =>
      obtain ⟨hphase, -, hkept⟩ := hrunning (.inr (.inr (.inr ⟨hv, hr⟩))) (State.running_of_outValid hv)
      exact ⟨hphase, hkept hr hready⟩

/-! ## The overrun stop (R111, R117) -/

/-- Settles O45: with one stream byte left BR0's check fails, its turn takes that byte and writes no more than `finish`
does, and in DONE the decoder waits. -/
theorem overrunIsPrecise : Obligations.OverrunIsPrecise := by
  intro s b rest h hm hp ho hleft
  have ht := State.Turn.stopOverrun hp ho (by omega)
  have hend := BitVec.eq_of_toNat_eq (ht.srcPos_of_done h (by simp [hp]) rfl)
  refine ⟨_, (step_of_no_moves hm).trans ht.decoderStep_eq, rfl, rfl, hend, rfl, rfl, rfl, rfl, rfl, rfl, rfl, rfl, ?_⟩
  exact State.Waits.step_eq (.inr (.inl rfl)) hm

end Sys2Proof.Machine
end

section
/-!
SUPPORT. The statements of spec/70_reset_and_hazards.md: reset in any phase (R126), a run that begins anew (R129), the
bound on steps without a transfer (R131), and register writes during a run (R133).
-/

namespace Sys2Proof.Machine

variable {s : State}

/-! ## Steps without a transfer (R131) -/

/-- Where R131's bound ends: the phase needs a transfer, or the run has stopped. -/
def State.AtTransferOrStop (s : State) : Prop := s.inReady = true ∨ s.outValid = true ∨ s.phase = .done

theorem State.Running.phase_cases (hrun : s.Running) : s.phase = .top ∨ s.phase = .unit ∨ s.AtTransferOrStop := by
  cases hp : s.phase with
  | idle => exact absurd hp hrun.1
  | done => exact absurd hp hrun.2
  | top => exact .inl rfl
  | unit => exact .inr (.inl rfl)
  | refill | lit | br0 | br1 => exact .inr (.inr (.inl (by rw [State.inReady, hp])))
  | litOut | copy => exact .inr (.inr (.inr (.inl (by rw [State.outValid, hp]))))

/-- UNIT goes on to LIT or BR0, which both take a byte. -/
theorem State.extractBit_inReady (s : State) : s.extractBit.inReady = true := by
  cases hbit : s.ctrlByte[0] <;> simp [State.inReady, State.extractBit, hbit]

/-- TOP stops the run, goes on to REFILL, or goes on to UNIT. -/
theorem State.loopTest_phase_cases (s : State) : s.loopTest.phase = .unit ∨ s.loopTest.AtTransferOrStop := by
  unfold State.loopTest
  split
  · exact .inr (.inr (.inr rfl))
  · split
    · exact .inr (.inl rfl)
    · exact .inl rfl

theorem State.runSteps_of_unit (hm : s.moves = []) (hp : s.phase = .unit) : s.runSteps 1 = .next s.extractBit :=
  (State.turn_extractBit hp).runSteps hm 0

/-- Settles O49: only TOP and UNIT make a step without a transfer, and UNIT does not come back to TOP without one. -/
theorem transferWithinTwoSteps : Obligations.TransferWithinTwoSteps := by
  intro s _ hrun hm
  rcases hrun.phase_cases with htop | hunit | hat
  · have hstep := (State.turn_loopTest htop).runSteps hm
    have hm' : s.loopTest.moves = [] := (State.turn_loopTest htop).host_eq.1.trans hm
    rcases s.loopTest_phase_cases with hunit | hat
    · exact ⟨2, _, le_rfl, (hstep 1).trans (State.runSteps_of_unit hm' hunit), .inl (State.extractBit_inReady _)⟩
    · exact ⟨1, _, one_le_two, hstep 0, hat⟩
  · exact ⟨1, _, one_le_two, State.runSteps_of_unit hm hunit, .inl s.extractBit_inReady⟩
  · exact ⟨0, s, Nat.zero_le 2, rfl, hat⟩

/-! ## Reset (R126) -/

theorem Status.word_reset : Status.reset.word = 0 := by decide

/-- Settles O2: reset does not look at the phase, and IDLE, where it leads, drives neither port and waits. -/
theorem resetAbandonsRun : Obligations.ResetAbandonsRun := fun s =>
  ⟨s.resetBlock, rfl, rfl, rfl, rfl, rfl, rfl, rfl, rfl, rfl, rfl, rfl, rfl, rfl, Status.word_reset, rfl, rfl, rfl,
    rfl, State.decoderStep_of_wait (.inl rfl)⟩

/-! ## A run begins anew (R129) -/

/-- START takes over six fields and sets all the others to the same values in every state. -/
theorem State.start_eq_reset_start (s : State) :
    s.start = { State.reset.start with
      srcLen := s.srcLen, offered := s.offered, outReady := s.outReady, moves := s.moves, got := s.got
      resets := s.resets } := rfl

/-- Settles O4: the premises equate the six fields that START takes over. -/
theorem startForgetsEarlierRuns : Obligations.StartForgetsEarlierRuns := by
  intro s₁ s₂ hlen hoffered hready hmoves hgot hresets
  rw [s₁.start_eq_reset_start, s₂.start_eq_reset_start, hlen, hoffered, hready, hmoves, hgot, hresets]

/-! ## Register writes during a run (R133) -/

/-- Settles O10: in a run the invariant has BUSY set, and then no register takes a write. -/
theorem writesDuringRunIgnored : Obligations.WritesDuringRunIgnored := by
  intro s offset x h hrun hal
  rw [State.move_regWrite_of_defined (accessDefined_iff.mpr ⟨rfl, hal⟩),
    State.writeReg_of_busy (h.status.busy.mpr hrun)]

end Sys2Proof.Machine
end
